-- ==== Sys2Proof/Word.lean ====
section
/-!
DEFINITION. The value types of the codec: Byte, ByteSequence and the 64-bit word (`00_scope.md` R4, R6,
R8), and the four integer widths (R4, R52). What a width stands for (its byte and bit counts) is in
`Sys2Proof/Decode.lean`.
-/

namespace Sys2Proof

/-- A Byte (R4 `BYTEW` = 8; glossary): 8 bits, unsigned, bit 0 least significant (R6). -/
abbrev Byte := BitVec 8

/-- The accumulator and integer datapath width (R4 `ACCW` = 64). -/
abbrev Word := BitVec 64

/-- A ByteSequence (R8): a finite list of Bytes, the most significant first (R33). -/
abbrev ByteSequence := List Byte

/-- The supported integer widths (R4 `WIDTHS`, `93_implementation_defined.md` U1): exactly four, so that no
other width can be named. -/
inductive Width where
  | w8
  | w16
  | w32
  | w64
  deriving DecidableEq, Repr

end Sys2Proof
end

