-- ==== Sys2Proof/Config.lean ====
section
/-!
DEFINITION. What an implementation fixes: the buffer capacity `MAXLEN` (`00_scope.md` R4, R24;
`92_eei_decisions.md` D4, which leaves it OPEN). `PORTMAP`, the other open parameter, is used by no rule and
has no place here (log entry 12).
-/

namespace Sys2Proof

/-- An admitted value of `MAXLEN` (R4): any integer with 8 <= MAXLEN <= 255. -/
structure MaxLen where
  /-- The capacity of `BUF` in bytes and the largest value of `LEN`. -/
  val : Nat
  /-- `ENC64` always fits. -/
  lower : 8 ≤ val
  /-- `LEN` and the buffer address fit one byte. -/
  upper : val ≤ 255
  deriving DecidableEq, Repr

/-- How far this implementation's `MAXLEN` lies above 8: a free value, of which only the range is known
(log entry 1). -/
opaque Config.maxLenAboveEight : Fin 248

/-- This implementation's `MAXLEN`: any admitted value, and no proof can see which (R4, log entry 1). -/
def Config.maxLen : MaxLen :=
  ⟨8 + Config.maxLenAboveEight.val, Nat.le_add_right 8 _, by omega⟩

end Sys2Proof
end

