-- ==== Sys2Proof/Syntax.lean ====
section
/-!
DEFINITION. The command set: one constructor for each row of `spec/opcode_table.json` (`30_encoding.md` R53).
A command names no register and carries no address and no immediate (R56): W is the only operand its word
carries (R52), and the constructor says it.
-/

namespace Sys2Proof

/-- The eight commands of R53. -/
inductive Instr where
  /-- `DEC8`, word 0x00 (R86). -/
  | dec8
  /-- `DEC16`, word 0x01 (R87). -/
  | dec16
  /-- `DEC32`, word 0x02 (R88). -/
  | dec32
  /-- `DEC64`, word 0x03 (R89). -/
  | dec64
  /-- `ENC8`, word 0x04 (R96). -/
  | enc8
  /-- `ENC16`, word 0x05 (R97). -/
  | enc16
  /-- `ENC32`, word 0x06 (R98). -/
  | enc32
  /-- `ENC64`, word 0x07 (R99). -/
  | enc64
  deriving DecidableEq, Repr

end Sys2Proof
end

