-- ==== Sys2Proof/Decode.lean ====
section
/-!
DEFINITION. The command decoder and encoder (`30_encoding.md` R50 to R57), with the byte and bit counts of the
widths (R52). The decoder is total on the 256 words: eight decode to a command, 248 to `reserved` (R54).
-/

namespace Sys2Proof

/-- K = W/8 (R4, R52): the bytes of an encoded integer of width W. -/
def Width.bytes : Width → Nat
  | .w8 => 1
  | .w16 => 2
  | .w32 => 4
  | .w64 => 8

/-- W in bits (R52). -/
def Width.bits (w : Width) : Nat := 8 * w.bytes

/-- The field `ww` of a width (R52): W = 8 << ww. -/
def Width.field : Width → BitVec 2
  | .w8 => 0b00#2
  | .w16 => 0b01#2
  | .w32 => 0b10#2
  | .w64 => 0b11#2

/-- The width a field `ww` names (R52). Every value of the field names one. -/
def Width.ofField (ww : BitVec 2) : Width :=
  if ww = 0b00#2 then .w8
  else if ww = 0b01#2 then .w16
  else if ww = 0b10#2 then .w32
  else .w64

/-- The decode command of width W: `Dec(W)` of R57. -/
def Instr.decodeOf : Width → Instr
  | .w8 => .dec8
  | .w16 => .dec16
  | .w32 => .dec32
  | .w64 => .dec64

/-- The encode command of width W: `Enc(W)` of R57. -/
def Instr.encodeOf : Width → Instr
  | .w8 => .enc8
  | .w16 => .enc16
  | .w32 => .enc32
  | .w64 => .enc64

/-- What the decoder answers for a word: a command, or that the word is reserved (R54, R57). -/
inductive Decoded where
  | command (i : Instr)
  | reserved
  deriving DecidableEq, Repr

/-- The reserved bits `c[7:3]` (R50). -/
def reservedBits (c : Byte) : BitVec 5 := c.extractLsb' 3 5

/-- The field `o`, `c[2:2]` (R51). -/
def operationField (c : Byte) : BitVec 1 := c.extractLsb' 2 1

/-- The field `ww`, `c[1:0]` (R52). -/
def widthField (c : Byte) : BitVec 2 := c.extractLsb' 0 2

/-- `decode_cmd` of R57. -/
def decodeCmd (c : Byte) : Decoded :=
  if reservedBits c = 0#5 then
    if operationField c = 0#1 then .command (.decodeOf (Width.ofField (widthField c)))
    else .command (.encodeOf (Width.ofField (widthField c)))
  else .reserved

/-- The field `o` of a command (R51): 0 decode, 1 encode. -/
def Instr.operation : Instr → BitVec 1
  | .dec8 | .dec16 | .dec32 | .dec64 => 0#1
  | .enc8 | .enc16 | .enc32 | .enc64 => 1#1

/-- The width a command names (R53). -/
def Instr.width : Instr → Width
  | .dec8 | .enc8 => .w8
  | .dec16 | .enc16 => .w16
  | .dec32 | .enc32 => .w32
  | .dec64 | .enc64 => .w64

/-- `encode_cmd` of R57, by the layout `00000oww` of R50. -/
def encodeCmd (i : Instr) : Byte := 0b00000#5 ++ i.operation ++ i.width.field

/-- The instruction the decoder reads from a table row's word: bits at and above `nbits` are zero, and the
word is the one 8-bit word of R55. -/
def decodeTableWord (nbits w : Nat) : Option Instr :=
  match decodeCmd (BitVec.ofNat 8 (w % 2 ^ nbits)) with
  | .command i => some i
  | .reserved => none

end Sys2Proof
end

