-- ==== Sys2Proof/Machine/State.lean ====
section
/-!
DEFINITION. The state of the block (`10_state.md` R10 to R22), the host actions and resets that reach it
(`43_host_access.md` R105 to R112, `70_reset_and_hazards.md` R155), and the state after reset.
-/

namespace Sys2Proof.Machine

/-- The byte buffer `BUF` (R12) as plain data: the bytes that differ from 0x00, by address. -/
abbrev Memory := List Host.Cell

/-- The host actions (R59, R105 to R112). Every operand has its port's width, so no action is ill-formed. -/
inductive HostAction where
  /-- `WRVAL v` (R105). -/
  | wrval (v : Word)
  /-- `RDVAL` (R106). -/
  | rdval
  /-- `WRLEN n` (R107). -/
  | wrlen (n : BitVec 8)
  /-- `RDLEN` (R108). -/
  | rdlen
  /-- `WRBUF a, b` (R109). -/
  | wrbuf (a : BitVec 8) (b : Byte)
  /-- `RDBUF a` (R110). -/
  | rdbuf (a : BitVec 8)
  /-- `CMD c` (R111). -/
  | cmd (c : BitVec 8)
  /-- `RDCMD` (R112). -/
  | rdcmd
  deriving DecidableEq, Repr

/-- What can reach the block from outside: a host action, or the reset input (R137, R155). -/
inductive Input where
  | action (a : HostAction)
  | reset
  deriving DecidableEq, Repr

/-- The value a read action yields, under the port it was read from (R106, R108, R110, R112). -/
inductive Reading where
  | val (v : Word)
  | len (n : BitVec 8)
  | buf (b : Byte)
  | cmd (c : BitVec 8)
  deriving DecidableEq, Repr

/-- The whole state of the block (R10), and the model's two bookkeeping lists. The port `CMD` stores nothing
(R14), so it has no field. -/
structure State where
  /-- `VAL` (R11). -/
  val : Word
  /-- `BUF` (R12). -/
  buf : Memory
  /-- `LEN` (R13). -/
  len : BitVec 8
  /-- `ACC` (R15). -/
  acc : Word
  /-- `WRK` (R16). -/
  wrk : Word
  /-- The inputs still to come, oldest first: the model's own position in a program (R18, R115; log entry 2). -/
  inputs : List Input
  /-- The values read so far, oldest first: the observation of R115 (log entry 4). -/
  readings : List Reading
  deriving DecidableEq, Repr

/-- The faults of the block: none exists (R135), so this type has no value. -/
inductive Fault where
  deriving DecidableEq, Repr

/-- The refusals of the model. -/
inductive Refusal where
  /-- Raised by an arm of `exec` whose instruction has no meaning yet; safe. No arm raises it: every command
  has its meaning, and reserved words are no-operations (R113). -/
  | notModelled (mnemonic : String)
  deriving DecidableEq, Repr

/-- The state after reset (R22, R155): every register and every buffer byte zero. Nothing is queued and
nothing has been read (log entries 2 and 4). -/
def State.reset : State where
  val := 0x0000000000000000#64
  buf := []
  len := 0#8
  acc := 0#64
  wrk := 0#64
  inputs := []
  readings := []

end Sys2Proof.Machine
end

