-- ==== Sys2Proof/Machine/Ops.lean ====
section
/-!
DEFINITION. The named operations over the buffer and the registers. There is no operation for taking an
exception or returning from one: the block has neither (`60_exceptions.md` R135, R139, R140).
-/

namespace Sys2Proof.Machine

/-- What an address that the list does not hold reads as: the reset contents of `BUF` (R22), and also what an
unmapped address reads as (R110; log entry 9). -/
def Memory.unlisted : Byte := 0x00#8

/-- `BUF[a]` (R9). -/
def Memory.read : Memory → Nat → Byte
  | [], _ => Memory.unlisted
  | (x, c) :: m, a => if a = x then c else Memory.read m a

/-- `BUF[a] <- b` (R9), keeping the canonical form: addresses rising, no entry at the unlisted value. -/
def Memory.write : Memory → Nat → Byte → Memory
  | [], a, b => if b = Memory.unlisted then [] else [(a, b)]
  | (x, c) :: m, a, b =>
    if a < x then
      if b = Memory.unlisted then (x, c) :: m else (a, b) :: (x, c) :: m
    else if a = x then
      if b = Memory.unlisted then m else (a, b) :: m
    else (x, c) :: Memory.write m a b

/-- `MemRead(addr, n)` (R9): n bytes in ascending address order. -/
def Memory.readRange (m : Memory) : Nat → Nat → ByteSequence
  | _, 0 => []
  | addr, n + 1 => m.read addr :: Memory.readRange m (addr + 1) n

/-- `MemWrite(addr, n, s)` (R9), with n = len(s): the bytes of `s` at `addr`, `addr + 1`, ... in that order. -/
def Memory.writeRange : Memory → Nat → ByteSequence → Memory
  | m, _, [] => m
  | m, addr, b :: s => Memory.writeRange (m.write addr b) (addr + 1) s

/-- The canonical form: addresses strictly rising, no entry equal to what an unlisted address reads as. -/
abbrev Memory.wf (m : Memory) : Prop :=
  m.Pairwise (fun x y => x.1 < y.1) ∧ ∀ c ∈ m, c.2 ≠ Memory.unlisted

/-- Every listed address is below a bound. -/
abbrev Memory.below (m : Memory) (bound : Nat) : Prop := ∀ c ∈ m, c.1 < bound

/-- `VAL <- v` (R11). -/
def State.setVal (s : State) (v : Word) : State := { s with val := v }

/-- `BUF` replaced whole (R12). -/
def State.setBuf (s : State) (m : Memory) : State := { s with buf := m }

/-- `LEN <- n` (R13). -/
def State.setLen (s : State) (n : BitVec 8) : State := { s with len := n }

/-- `ACC <- a` (R15). -/
def State.setAcc (s : State) (a : Word) : State := { s with acc := a }

/-- `WRK <- w` (R16). -/
def State.setWrk (s : State) (w : Word) : State := { s with wrk := w }

/-- The inputs that remain. -/
def State.setInputs (s : State) (rest : List Input) : State := { s with inputs := rest }

/-- A read action yields `r` (R115: the values read, in order). Reads change no other state (R37). -/
def State.yield (s : State) (r : Reading) : State := { s with readings := s.readings ++ [r] }

/-- Reset is applied (R155): every piece of the block's state takes its reset value, whatever it held. What
the host has still to do and what it has read are not state of the block and stay (log entry 5). -/
def State.applyReset (s : State) : State :=
  { State.reset with inputs := s.inputs, readings := s.readings }

/-- `min(n, MAXLEN)` as R107 stores it in `LEN`. -/
def clampLen (maxLen : Nat) (n : BitVec 8) : BitVec 8 := BitVec.ofNat 8 (min n.toNat maxLen)

end Sys2Proof.Machine
end

