-- ==== Sys2Proof/Machine/Operands.lean ====
section
/-!
DEFINITION. The implicit operands of the commands (`30_encoding.md` R56): the ByteSequence `seq(BUF, LEN)` that
decode reads (`10_state.md` R12), the bytes of it that decode retains (`40_datapath_primitives.md` R65), and
`VAL[W-1:0]`, which encode reads (`42_encode.md` R95).
-/

namespace Sys2Proof.Machine

/-- `seq(BUF, LEN)` (R12): the bytes at addresses 0 .. LEN-1. -/
def State.seq (s : State) : ByteSequence := s.buf.readRange 0 s.len.toNat

/-- `suffix(s, n)` (R8): the last n elements, in order. -/
def suffix (s : ByteSequence) (n : Nat) : ByteSequence := s.drop (s.length - n)

/-- `zeros(n)` (R8). -/
def zeros (n : Nat) : ByteSequence := List.replicate n 0x00#8

/-- `retained(s, W)` (R65): the last min(len(s), K) bytes. -/
def retained (s : ByteSequence) (w : Width) : ByteSequence := suffix s (min s.length w.bytes)

/-- n of R85: how many bytes the decode command of width W reads. -/
def State.retainedCount (s : State) (w : Width) : Nat := min s.len.toNat w.bytes

/-- LEN - n of R85: the address of the first byte that the decode command of width W reads. -/
def State.retainedBase (s : State) (w : Width) : Nat := s.len.toNat - s.retainedCount w

/-- `VAL[W-1:0]` (R95), a value of width W. -/
def State.valAt (s : State) (w : Width) : BitVec w.bits := s.val.setWidth w.bits

end Sys2Proof.Machine
end

