-- ==== Sys2Proof/Machine/Datapath.lean ====
section
/-!
DEFINITION. The datapath primitives and the two pure functions `decode` and `encode`
(`40_datapath_primitives.md` R65 to R77).
-/

namespace Sys2Proof.Machine

/-- `acc_step(a, b)` (R66): shift left by 8, dropping the bits past bit 63, then OR in the byte. -/
def accStep (a : Word) (b : Byte) : Word := (a <<< 8) ||| b.setWidth 64

/-- `acc64(r)` (R67), on a sequence of any length: one step a byte, the first byte first, from 0. -/
def acc64 (r : ByteSequence) : Word := r.foldl accStep 0#64

/-- `narrow_W(a)` (R69): the low W bits. -/
def narrow (w : Width) (a : Word) : BitVec w.bits := a.setWidth w.bits

/-- `zext_64(v)` (R7) of a value of width W. -/
def zext64 {w : Width} (v : BitVec w.bits) : Word := v.setWidth 64

/-- `decode(s, W)` (R71). -/
def decode (s : ByteSequence) (w : Width) : BitVec w.bits := narrow w (acc64 (retained s w))

/-- `low_byte(w)` (R73): `w & 0xFF`, a Byte. -/
def lowByte (w : Word) : Byte := (w &&& 0xFF#64).setWidth 8

/-- The loop of `encode` (R74): `k` iterations are left, `w` is the working copy, `res` the result so far. -/
def encodeFrom : Nat → Word → ByteSequence → ByteSequence
  | 0, _, res => res
  | k + 1, w, res => encodeFrom k (w >>> 8) (lowByte w :: res)

/-- `encode(v, W)` (R74). -/
def encode (w : Width) (v : BitVec w.bits) : ByteSequence := encodeFrom w.bytes (zext64 v) []

end Sys2Proof.Machine
end

