-- ==== Sys2Proof/Machine/DecodeCommands.lean ====
section
/-!
DEFINITION. The decode commands (`41_decode.md` R85 to R90): one shared operation over the registers, and one
meaning for each command.
-/

namespace Sys2Proof.Machine

/-- The loop of R85: `n` bytes are left, the next one at `addr`; addresses ascend (R36). -/
def accumulateFrom (buf : Memory) : Nat → Nat → Word → Word
  | _, 0, acc => acc
  | addr, n + 1, acc => accumulateFrom buf (addr + 1) n (accStep acc (buf.read addr))

/-- `DEC(W)` (R85): `ACC` from 0 over the retained bytes, then `VAL <- zext_64(narrow_W(ACC))`. -/
def runDecode (w : Width) (s : State) : Host.Outcome State Fault Refusal :=
  let acc := accumulateFrom s.buf (s.retainedBase w) (s.retainedCount w) 0#64
  .next ((s.setAcc acc).setVal (zext64 (narrow w acc)))

/-- `DEC8` (R86). -/
def execDec8 (s : State) : Host.Outcome State Fault Refusal := runDecode .w8 s

/-- `DEC16` (R87). -/
def execDec16 (s : State) : Host.Outcome State Fault Refusal := runDecode .w16 s

/-- `DEC32` (R88). -/
def execDec32 (s : State) : Host.Outcome State Fault Refusal := runDecode .w32 s

/-- `DEC64` (R89). -/
def execDec64 (s : State) : Host.Outcome State Fault Refusal := runDecode .w64 s

end Sys2Proof.Machine
end

