-- ==== Sys2Proof/Machine/EncodeCommands.lean ====
section
/-!
DEFINITION. The encode commands (`42_encode.md` R95 to R100): one shared operation over the registers, and one
meaning for each command.
-/

namespace Sys2Proof.Machine

/-- The loop of R95 over `WRK` and `BUF`. With k + 1 iterations left it is iteration i = K - 1 - k, which writes
address K - 1 - i = k; addresses descend (R36). Every address is below K <= 8 <= MAXLEN, so it exists. -/
def encodeInto : Nat → Word → Memory → Word × Memory
  | 0, wrk, buf => (wrk, buf)
  | k + 1, wrk, buf => encodeInto k (wrk >>> 8) (buf.write k (lowByte wrk))

/-- `ENC(W)` (R95): `WRK` from `VAL[W-1:0]`, K bytes into `BUF`, `LEN <- K`; `VAL` is left as it was. -/
def runEncode (w : Width) (s : State) : Host.Outcome State Fault Refusal :=
  let r := encodeInto w.bytes (zext64 (s.valAt w)) s.buf
  .next (((s.setWrk r.1).setBuf r.2).setLen (BitVec.ofNat 8 w.bytes))

/-- `ENC8` (R96). -/
def execEnc8 (s : State) : Host.Outcome State Fault Refusal := runEncode .w8 s

/-- `ENC16` (R97). -/
def execEnc16 (s : State) : Host.Outcome State Fault Refusal := runEncode .w16 s

/-- `ENC32` (R98). -/
def execEnc32 (s : State) : Host.Outcome State Fault Refusal := runEncode .w32 s

/-- `ENC64` (R99). -/
def execEnc64 (s : State) : Host.Outcome State Fault Refusal := runEncode .w64 s

end Sys2Proof.Machine
end

