-- ==== Sys2Proof/Machine/Dispatch.lean ====
section
/-!
DEFINITION. One arm for each command of `Instr` (`43_host_access.md` R111).
-/

namespace Sys2Proof.Machine

/-- The effect of a command on the state (R111). -/
def exec (i : Instr) (s : State) : Host.Outcome State Fault Refusal :=
  match i with
  | .dec8 => Sys2Proof.Machine.execDec8 s
  | .dec16 => Sys2Proof.Machine.execDec16 s
  | .dec32 => Sys2Proof.Machine.execDec32 s
  | .dec64 => Sys2Proof.Machine.execDec64 s
  | .enc8 => Sys2Proof.Machine.execEnc8 s
  | .enc16 => Sys2Proof.Machine.execEnc16 s
  | .enc32 => Sys2Proof.Machine.execEnc32 s
  | .enc64 => Sys2Proof.Machine.execEnc64 s

end Sys2Proof.Machine
end

