-- ==== Sys2Proof/Machine/HostAccess.lean ====
section
/-!
DEFINITION. The host's access to the block (`43_host_access.md` R105 to R116): one definition for each host
action, what one input does, and the run of a program. `MAXLEN` is an argument (R4).
-/

namespace Sys2Proof.Machine

/-- `WRVAL v` (R105). -/
def performWrval (v : Word) (s : State) : State := s.setVal v

/-- `RDVAL` (R106). -/
def performRdval (s : State) : State := s.yield (.val s.val)

/-- `WRLEN n` (R107): a value above MAXLEN is clamped. -/
def performWrlen (maxLen : MaxLen) (n : BitVec 8) (s : State) : State :=
  s.setLen (clampLen maxLen.val n)

/-- `RDLEN` (R108). -/
def performRdlen (s : State) : State := s.yield (.len s.len)

/-- `WRBUF a, b` (R109): a write at or above MAXLEN is dropped. -/
def performWrbuf (maxLen : MaxLen) (a : BitVec 8) (b : Byte) (s : State) : State :=
  if a.toNat < maxLen.val then s.setBuf (s.buf.write a.toNat b) else s

/-- The byte `RDBUF a` yields (R110): 0x00 at or above MAXLEN. -/
def readBuf (maxLen : MaxLen) (a : BitVec 8) (s : State) : Byte :=
  if a.toNat < maxLen.val then s.buf.read a.toNat else 0x00#8

/-- `RDBUF a` (R110). -/
def performRdbuf (maxLen : MaxLen) (a : BitVec 8) (s : State) : State :=
  s.yield (.buf (readBuf maxLen a s))

/-- `CMD c` (R111): the command the word encodes, whole; a reserved word does nothing (R113). -/
def performCmd (c : BitVec 8) (s : State) : Host.Outcome State Fault Refusal :=
  match decodeCmd c with
  | .command i => exec i s
  | .reserved => .next s

/-- `RDCMD` (R112): always 0x00, and no command executes. -/
def performRdcmd (s : State) : State := s.yield (.cmd 0x00#8)

/-- One host action (R114). -/
def perform (maxLen : MaxLen) (a : HostAction) (s : State) : Host.Outcome State Fault Refusal :=
  match a with
  | .wrval v => .next (performWrval v s)
  | .rdval => .next (performRdval s)
  | .wrlen n => .next (performWrlen maxLen n s)
  | .rdlen => .next (performRdlen s)
  | .wrbuf a b => .next (performWrbuf maxLen a b s)
  | .rdbuf a => .next (performRdbuf maxLen a s)
  | .cmd c => performCmd c s
  | .rdcmd => .next (performRdcmd s)

/-- One input: a host action, or the reset input between two of them (R155, R156). -/
def absorb (maxLen : MaxLen) (i : Input) (s : State) : Host.Outcome State Fault Refusal :=
  match i with
  | .action a => perform maxLen a s
  | .reset => .next s.applyReset

/-- One step of the block with a given MAXLEN: it takes the next input, whole (R5, R40). With no input the
state is constant: the block never acts on its own (R114 (c), R157; log entry 3). -/
def hostStep (maxLen : MaxLen) (s : State) : Host.Outcome State Fault Refusal :=
  match s.inputs with
  | [] => .next s
  | i :: rest => absorb maxLen i (s.setInputs rest)

/-- The run of a program from a state (R115): its actions in list order, each taking the state to the next. -/
def runActions (maxLen : MaxLen) : List HostAction → State → Host.Outcome State Fault Refusal
  | [], s => .next s
  | a :: rest, s =>
    match perform maxLen a s with
    | .next t => runActions maxLen rest t
    | .fault f => .fault f
    | .refused r => .refused r

/-- What a run shows (R115): the values read, in order, and `VAL`, `LEN`, `BUF` of its final state. -/
structure Observation where
  readings : List Reading
  val : Word
  len : BitVec 8
  buf : Memory
  deriving DecidableEq, Repr

/-- The observation of the run that ends in this state (R115). -/
def State.observation (s : State) : Observation := ⟨s.readings, s.val, s.len, s.buf⟩

end Sys2Proof.Machine
end

