-- ==== Sys2Proof/Machine/Step.lean ====
section
/-!
DEFINITION. The step of the machine: one input, with this implementation's MAXLEN (`00_scope.md` R4, R5).
-/

namespace Sys2Proof.Machine

/-- One step: the next host action or reset, whole (R5, R156). -/
def step (s : State) : Host.Outcome State Fault Refusal := hostStep Config.maxLen s

/-- The state in which the next input is the write of this command word to `CMD`, before every input that was
already waiting: how a command reaches a block that fetches nothing (R18, R111; log entry 6). -/
def State.withFetchWord (s : State) (nbits w : Nat) : State :=
  { s with inputs := .action (.cmd (BitVec.ofNat 8 (w % 2 ^ nbits))) :: s.inputs }

end Sys2Proof.Machine
end

