-- ==== Sys2Proof/Machine/HostSyntax.lean ====
section
/-!
DEFINITION. How a host action is written: its code as a triple (`30_encoding.md` R61) and the statements of an
assembler line (R58 to R60).
-/

namespace Sys2Proof.Machine

/-- The ports of R61 (R31: each is a port of its own). -/
inductive Port where
  | val
  | len
  | buf
  | cmd
  deriving DecidableEq, Repr

/-- The code of a host action (R61): port, address (for `BUF` only), and the written value, or none for a read. -/
structure ActionCode where
  port : Port
  address : Option Nat
  data : Option Nat
  deriving DecidableEq, Repr

/-- What one assembler line asks for: a host action (R59), or a pseudo-instruction (R60). -/
inductive Statement where
  | action (a : HostAction)
  /-- `PUTSEQ [b0, ..., b(m-1)]`. -/
  | putSeq (s : ByteSequence)
  /-- `GETSEQ`. -/
  | getSeq
  /-- `DECODE w`. -/
  | decode (w : Width)
  /-- `ENCODE w`. -/
  | encode (w : Width)
  deriving DecidableEq, Repr

end Sys2Proof.Machine
end

