-- ==== Sys2Proof/WellFormed.lean ====
section
/-!
DEFINITION. Which written forms the spec admits. A command carries nothing that could be ill-formed (R56), and a
host action's operands have their ports' widths by their types; what can be ill-formed is a command word (R50),
the code of a host action (R61), and a `PUTSEQ` too long for the buffer (R60).
-/

namespace Sys2Proof

/-- A defined command word has its reserved bits `c[7:3]` zero (R50, R54). -/
def definedWord (c : Byte) : Bool := c.toNat / 8 == 0

namespace Machine

/-- The width in bits of a port's data (R31, R36). -/
def Port.dataBits : Port → Nat
  | .val => 64
  | .len => 8
  | .buf => 8
  | .cmd => 8

/-- "address only for `BUF`" (R61), and an address is 8 bits (R30). -/
def ActionCode.addressFits (c : ActionCode) : Bool :=
  match c.port, c.address with
  | .buf, some a => a < 256
  | .buf, none => false
  | .val, some _ | .len, some _ | .cmd, some _ => false
  | .val, none | .len, none | .cmd, none => true

/-- The written value has the port's width (R59, R61). -/
def ActionCode.dataFits (c : ActionCode) : Bool :=
  match c.data with
  | none => true
  | some d => d < 2 ^ c.port.dataBits

/-- The codes of R61. -/
def ActionCode.wf (c : ActionCode) : Bool := c.addressFits && c.dataFits

/-- `PUTSEQ` takes at most MAXLEN bytes (R60); nothing else can be ill-formed. -/
def Statement.wf (maxLen : MaxLen) : Statement → Bool
  | .putSeq s => s.length ≤ maxLen.val
  | .action _ | .getSeq | .decode _ | .encode _ => true

end Machine

end Sys2Proof
end

