-- ==== Sys2Proof/Machine/ActionCode.lean ====
section
/-!
DEFINITION. The codes of the host actions (`30_encoding.md` R61), both ways. The reader is total and rejects what
is no code.
-/

namespace Sys2Proof.Machine

/-- The triple of R61. -/
def HostAction.code : HostAction → ActionCode
  | .wrval v => ⟨.val, none, some v.toNat⟩
  | .rdval => ⟨.val, none, none⟩
  | .wrlen n => ⟨.len, none, some n.toNat⟩
  | .rdlen => ⟨.len, none, none⟩
  | .wrbuf a b => ⟨.buf, some a.toNat, some b.toNat⟩
  | .rdbuf a => ⟨.buf, some a.toNat, none⟩
  | .cmd c => ⟨.cmd, none, some c.toNat⟩
  | .rdcmd => ⟨.cmd, none, none⟩

/-- The host action a triple stands for, if it is one of R61's. -/
def HostAction.ofCode (c : ActionCode) : Option HostAction :=
  if c.wf then
    match c.port, c.address, c.data with
    | .val, _, some d => some (.wrval (BitVec.ofNat 64 d))
    | .val, _, none => some .rdval
    | .len, _, some d => some (.wrlen (BitVec.ofNat 8 d))
    | .len, _, none => some .rdlen
    | .buf, some a, some d => some (.wrbuf (BitVec.ofNat 8 a) (BitVec.ofNat 8 d))
    | .buf, some a, none => some (.rdbuf (BitVec.ofNat 8 a))
    | .buf, none, _ => none
    | .cmd, _, some d => some (.cmd (BitVec.ofNat 8 d))
    | .cmd, _, none => some .rdcmd
  else none

/-- The encoding of a program (R61): the codes of its host actions, in order. -/
def programCode (p : List HostAction) : List ActionCode := p.map HostAction.code

end Sys2Proof.Machine
end

