-- ==== Sys2Proof/Machine/Assembler.lean ====
section
/-!
DEFINITION. The assembler (`30_encoding.md` R58 to R60): from the characters of one line to its statement, and
from a statement to the host actions it stands for.
-/

namespace Sys2Proof.Machine

/-- Is this a read action (R59: it yields a value)? -/
def HostAction.reads : HostAction → Bool
  | .rdval | .rdlen | .rdbuf _ | .rdcmd => true
  | .wrval _ | .wrlen _ | .wrbuf _ _ | .cmd _ => false

/-- The `WRBUF` actions of `PUTSEQ` (R60), from an address on. -/
def putBytes : Nat → ByteSequence → List HostAction
  | _, [] => []
  | a, b :: s => .wrbuf (BitVec.ofNat 8 a) b :: putBytes (a + 1) s

/-- The `RDBUF` actions of `GETSEQ` (R60): m of them, from an address on. -/
def getBytes : Nat → Nat → List HostAction
  | _, 0 => []
  | a, m + 1 => .rdbuf (BitVec.ofNat 8 a) :: getBytes (a + 1) m

/-- The expansion of a statement (R60). `m` is the value that the `RDLEN` of a `GETSEQ` yields, on which the
rest of its expansion depends: one program for each value (R115; log entry 15). -/
def Statement.expand (m : Nat) : Statement → List HostAction
  | .action a => [a]
  | .putSeq s => putBytes 0 s ++ [.wrlen (BitVec.ofNat 8 s.length)]
  | .getSeq => .rdlen :: getBytes 0 m
  | .decode w => [.cmd (encodeCmd (.decodeOf w))]
  | .encode w => [.cmd (encodeCmd (.encodeOf w))]

/-- The words a line begins with (R58 to R60). -/
inductive Mnemonic where
  | wrval
  | rdval
  | wrlen
  | rdlen
  | wrbuf
  | rdbuf
  | cmd
  | rdcmd
  | command (i : Instr)
  | putSeq
  | getSeq
  | decode
  | encode
  deriving DecidableEq, Repr

/-- The spelling of each (R58 to R60: upper case). -/
def mnemonics : List (List Char × Mnemonic) :=
  [(['W', 'R', 'V', 'A', 'L'], .wrval), (['R', 'D', 'V', 'A', 'L'], .rdval),
   (['W', 'R', 'L', 'E', 'N'], .wrlen), (['R', 'D', 'L', 'E', 'N'], .rdlen),
   (['W', 'R', 'B', 'U', 'F'], .wrbuf), (['R', 'D', 'B', 'U', 'F'], .rdbuf),
   (['C', 'M', 'D'], .cmd), (['R', 'D', 'C', 'M', 'D'], .rdcmd),
   (['D', 'E', 'C', '8'], .command .dec8), (['D', 'E', 'C', '1', '6'], .command .dec16),
   (['D', 'E', 'C', '3', '2'], .command .dec32), (['D', 'E', 'C', '6', '4'], .command .dec64),
   (['E', 'N', 'C', '8'], .command .enc8), (['E', 'N', 'C', '1', '6'], .command .enc16),
   (['E', 'N', 'C', '3', '2'], .command .enc32), (['E', 'N', 'C', '6', '4'], .command .enc64),
   (['P', 'U', 'T', 'S', 'E', 'Q'], .putSeq), (['G', 'E', 'T', 'S', 'E', 'Q'], .getSeq),
   (['D', 'E', 'C', 'O', 'D', 'E'], .decode), (['E', 'N', 'C', 'O', 'D', 'E'], .encode)]

/-- The pieces of a line. -/
inductive Token where
  | word (cs : List Char)
  | comma
  | openBracket
  | closeBracket
  deriving DecidableEq, Repr

/-- The word read so far, if any, before the tokens that follow it. -/
def flushWord (current : List Char) (rest : List Token) : List Token :=
  match current with
  | [] => rest
  | _ :: _ => .word current.reverse :: rest

/-- The tokens of a line; `#` opens a comment to the end of the line (R59). -/
def tokenize : List Char → List Char → List Token
  | [], current => flushWord current []
  | c :: cs, current =>
    if c = '#' then flushWord current []
    else if c = ' ' ∨ c = '\t' then flushWord current (tokenize cs [])
    else if c = ',' then flushWord current (.comma :: tokenize cs [])
    else if c = '[' then flushWord current (.openBracket :: tokenize cs [])
    else if c = ']' then flushWord current (.closeBracket :: tokenize cs [])
    else tokenize cs (c :: current)

/-- The value of a digit in a base up to sixteen. -/
def digitValue (base : Nat) (c : Char) : Option Nat :=
  let n := c.toNat
  let v := if 48 ≤ n ∧ n ≤ 57 then n - 48 else if 65 ≤ n ∧ n ≤ 70 then n - 55
    else if 97 ≤ n ∧ n ≤ 102 then n - 87 else base
  if v < base then some v else none

/-- Digits to a number, on top of the digits read before. -/
def digitsValue (base : Nat) : List Char → Nat → Option Nat
  | [], n => some n
  | c :: cs, n =>
    match digitValue base c with
    | some d => digitsValue base cs (n * base + d)
    | none => none

/-- A numeral, decimal or `0x` hexadecimal (R59), below a bound. -/
def numeral (bound : Nat) (cs : List Char) : Option Nat :=
  let value := match cs with
    | '0' :: 'x' :: d :: ds => digitsValue 16 (d :: ds) 0
    | d :: ds => digitsValue 10 (d :: ds) 0
    | [] => none
  value.filter (· < bound)

/-- The bytes of a bracketed list after its first one (R8, R60). -/
def moreBytes : List Token → Option ByteSequence
  | [.closeBracket] => some []
  | .comma :: .word n :: rest =>
    match numeral 256 n, moreBytes rest with
    | some b, some s => some (BitVec.ofNat 8 b :: s)
    | _, _ => none
  | _ => none

/-- The bytes of a bracketed list, after its opening bracket (R8, R60). -/
def byteList : List Token → Option ByteSequence
  | [.closeBracket] => some []
  | .word n :: rest =>
    match numeral 256 n, moreBytes rest with
    | some b, some s => some (BitVec.ofNat 8 b :: s)
    | _, _ => none
  | _ => none

/-- The width operand of `DECODE` and `ENCODE` (R60): 8, 16, 32 or 64. -/
def widthOperand (cs : List Char) : Option Width :=
  match numeral 65 cs with
  | some 8 => some .w8
  | some 16 => some .w16
  | some 32 => some .w32
  | some 64 => some .w64
  | _ => none

/-- The statement of a mnemonic and its operands (R58 to R60), with the operand ranges of R59. -/
def statementOf : Mnemonic → List Token → Option Statement
  | .wrval, [.word v] => (numeral (2 ^ 64) v).map fun v => .action (.wrval (BitVec.ofNat 64 v))
  | .rdval, [] => some (.action .rdval)
  | .wrlen, [.word n] => (numeral 256 n).map fun n => .action (.wrlen (BitVec.ofNat 8 n))
  | .rdlen, [] => some (.action .rdlen)
  | .wrbuf, [.word a, .comma, .word b] =>
    match numeral 256 a, numeral 256 b with
    | some a, some b => some (.action (.wrbuf (BitVec.ofNat 8 a) (BitVec.ofNat 8 b)))
    | _, _ => none
  | .rdbuf, [.word a] => (numeral 256 a).map fun a => .action (.rdbuf (BitVec.ofNat 8 a))
  | .cmd, [.word c] => (numeral 256 c).map fun c => .action (.cmd (BitVec.ofNat 8 c))
  | .rdcmd, [] => some (.action .rdcmd)
  | .command i, [] => some (.action (.cmd (encodeCmd i)))
  | .putSeq, .openBracket :: rest => (byteList rest).map .putSeq
  | .getSeq, [] => some .getSeq
  | .decode, [.word w] => (widthOperand w).map .decode
  | .encode, [.word w] => (widthOperand w).map .encode
  | _, _ => none

/-- A line's operands and the name that `-> x` gives the value it yields (R59). R59 does not say what `x` may be:
any single word is taken, a numeral, a mnemonic or `->` itself too (DESIGN CHOICE, log entry 16). -/
def splitName : List Token → List Token × Option (List Char)
  | [] => ([], none)
  | [.word ['-', '>'], .word x] => ([], some x)
  | t :: ts => (t :: (splitName ts).1, (splitName ts).2)

/-- What one line says: a statement, and the name of the value it yields. -/
structure Line where
  statement : Statement
  name : Option (List Char)
  deriving DecidableEq, Repr

/-- Does a statement yield a value that can be named (R59, R60)? -/
def Statement.reads : Statement → Bool
  | .action a => a.reads
  | .getSeq => true
  | .putSeq _ | .decode _ | .encode _ => false

/-- One line of a program (R59: one action per line) for a MAXLEN; none where it is no line of the syntax. A
line that holds nothing but a comment says nothing: `some none`. -/
def assembleLine (maxLen : MaxLen) (cs : List Char) : Option (Option Line) :=
  match tokenize cs [] with
  | [] => some none
  | .word m :: rest =>
    match mnemonics.lookup m with
    | none => none
    | some k =>
      match statementOf k (splitName rest).1 with
      | none => none
      | some st =>
        if st.wf maxLen && (st.reads || (splitName rest).2.isNone) then
          some (some ⟨st, (splitName rest).2⟩)
        else none
  | _ :: _ => none

end Sys2Proof.Machine
end

