-- ==== Sys2Proof/Safety.lean ====
section
/-!
DEFINITION. What claims speak of: an outcome that goes on (`60_exceptions.md` R135), the legal states
(`10_state.md` R21), and when two states hold the same hardware (R10) or the same observable registers (R17).
-/

namespace Sys2Proof.Machine

/-- The machine goes on: no fault, no refusal (R116, R135). -/
def Completes (o : Host.Outcome State Fault Refusal) : Prop := ∃ t, o = .next t

/-- The legal states for a MAXLEN (R21 (a); (b) and (c) hold by the types): `LEN` is at most MAXLEN, and `BUF` is
in canonical form and lies wholly in the buffer space (R30). -/
abbrev State.Legal (maxLen : MaxLen) (s : State) : Prop :=
  s.len.toNat ≤ maxLen.val ∧ s.buf.wf ∧ s.buf.below maxLen.val

/-- The two states hold the same hardware (R10); what the host has still to do and has read may differ. -/
abbrev State.SameHardware (s t : State) : Prop :=
  s.val = t.val ∧ s.buf = t.buf ∧ s.len = t.len ∧ s.acc = t.acc ∧ s.wrk = t.wrk

/-- The two states agree on all but `ACC` and `WRK`, which nothing can observe (R17). -/
abbrev State.SameVisible (s t : State) : Prop :=
  s.val = t.val ∧ s.buf = t.buf ∧ s.len = t.len ∧ s.inputs = t.inputs ∧ s.readings = t.readings

/-- The number a byte sequence writes, most significant byte first (R68, R71): the sum of r[i] * 256^(n-1-i). -/
def bigEndian (r : ByteSequence) : Nat := ∑ i : Fin r.length, r[i].toNat * 256 ^ (r.length - 1 - i.val)

end Sys2Proof.Machine
end

