-- ==== Sys2Proof/Certificates/Slice0/Obligations.lean ====
section
/-!
DEFINITION. The statements about the codec, from the numbered rules of `spec/`. W ranges over the four widths and
K = W/8. Each statement that runs host actions holds for every admitted MAXLEN `m` (`00_scope.md` R4).
-/

open Sys2Proof Sys2Proof.Machine

/-! ## Encodings -/

/-- R53: the eight rows of the opcode map, and the decoder's test `(c & mask) == match` with mask 0xFF. -/
def Obligations.CommandWordsDecodeAsTabled : Prop :=
  decodeCmd 0x00#8 = .command .dec8 ∧ decodeCmd 0x01#8 = .command .dec16 ∧
  decodeCmd 0x02#8 = .command .dec32 ∧ decodeCmd 0x03#8 = .command .dec64 ∧
  decodeCmd 0x04#8 = .command .enc8 ∧ decodeCmd 0x05#8 = .command .enc16 ∧
  decodeCmd 0x06#8 = .command .enc32 ∧ decodeCmd 0x07#8 = .command .enc64 ∧
  (∀ i, operationField (encodeCmd i) = i.operation ∧ widthField (encodeCmd i) = i.width.field) ∧
  ∀ c i, decodeCmd c = .command i ↔ c &&& 0xFF#8 = encodeCmd i

/-- R52: the field `ww` names W = 8 << ww and K = 2^ww, each of the four widths once. -/
def Obligations.WidthFieldNamesTheFourWidths : Prop :=
  (∀ ww : BitVec 2, (Width.ofField ww).bits = 8 <<< ww.toNat ∧ (Width.ofField ww).bytes = 2 ^ ww.toNat ∧
    (Width.ofField ww).field = ww) ∧
  (∀ w : Width, Width.ofField w.field = w ∧ w.bits ∈ [8, 16, 32, 64] ∧ w.bytes = w.bits / 8)

/-- R57: `decode_cmd` by its fields, and that it is a bijection between the words 0x00 .. 0x07 and the commands. -/
def Obligations.CommandCodingIsABijection : Prop :=
  (∀ w : Width, (encodeCmd (.decodeOf w)).toNat = Nat.log2 (w.bits / 8) ∧
    (encodeCmd (.encodeOf w)).toNat = 4 + Nat.log2 (w.bits / 8)) ∧
  (∀ i, (encodeCmd i).toNat < 8 ∧ decodeCmd (encodeCmd i) = .command i) ∧
  (∀ c : BitVec 8, c.toNat < 8 → ∃ i, decodeCmd c = .command i ∧ encodeCmd i = c) ∧
  (∀ c : BitVec 8, c.extractLsb' 3 5 ≠ 0#5 → decodeCmd c = .reserved) ∧
  ∀ c : BitVec 8, c.extractLsb' 3 5 = 0#5 → ∀ w : Width, w.bits = 8 <<< (c.extractLsb' 0 2).toNat →
    (c.extractLsb' 2 1 = 0#1 → decodeCmd c = .command (.decodeOf w)) ∧
    (c.extractLsb' 2 1 ≠ 0#1 → decodeCmd c = .command (.encodeOf w))

/-- R54: the reserved words are 0x08 .. 0xFF, 248 of the 256; each executes as a no-operation. -/
def Obligations.ReservedWordsAreNoOperations : Prop :=
  (∀ c : BitVec 8, decodeCmd c = .reserved ↔ 0x08 ≤ c.toNat) ∧
  ((List.range 256).filter fun n => decodeCmd (BitVec.ofNat 8 n) = .reserved).length = 248 ∧
  ∀ (m : MaxLen) (c : BitVec 8) (s : State), 0x08 ≤ c.toNat → perform m (.cmd c) s = .next s

/-- R61: the triple of each host action; every triple of that form is read back as its one action, and nothing
else is read. -/
def Obligations.ActionCodesRoundTrip : Prop :=
  (∀ v, HostAction.code (.wrval v) = ⟨.val, none, some v.toNat⟩) ∧
  HostAction.code .rdval = ⟨.val, none, none⟩ ∧
  (∀ n, HostAction.code (.wrlen n) = ⟨.len, none, some n.toNat⟩) ∧
  HostAction.code .rdlen = ⟨.len, none, none⟩ ∧
  (∀ a b, HostAction.code (.wrbuf a b) = ⟨.buf, some a.toNat, some b.toNat⟩) ∧
  (∀ a, HostAction.code (.rdbuf a) = ⟨.buf, some a.toNat, none⟩) ∧
  (∀ c, HostAction.code (.cmd c) = ⟨.cmd, none, some c.toNat⟩) ∧
  HostAction.code .rdcmd = ⟨.cmd, none, none⟩ ∧
  (∀ a : HostAction, a.code.wf = true ∧ HostAction.ofCode a.code = some a) ∧
  (∀ c : ActionCode, c.wf = true → ∃ a, HostAction.ofCode c = some a ∧ a.code = c) ∧
  ∀ c : ActionCode, c.wf = false → HostAction.ofCode c = none

/-- R58: each command's mnemonic, alone on a line, stands for the host action `CMD c` with its word. -/
def Obligations.CommandMnemonicsStandForTheirWords : Prop :=
  ∀ m : MaxLen,
    assembleLine m ['D', 'E', 'C', '8'] = some (some ⟨.action (.cmd 0x00#8), none⟩) ∧
    assembleLine m ['D', 'E', 'C', '1', '6'] = some (some ⟨.action (.cmd 0x01#8), none⟩) ∧
    assembleLine m ['D', 'E', 'C', '3', '2'] = some (some ⟨.action (.cmd 0x02#8), none⟩) ∧
    assembleLine m ['D', 'E', 'C', '6', '4'] = some (some ⟨.action (.cmd 0x03#8), none⟩) ∧
    assembleLine m ['E', 'N', 'C', '8'] = some (some ⟨.action (.cmd 0x04#8), none⟩) ∧
    assembleLine m ['E', 'N', 'C', '1', '6'] = some (some ⟨.action (.cmd 0x05#8), none⟩) ∧
    assembleLine m ['E', 'N', 'C', '3', '2'] = some (some ⟨.action (.cmd 0x06#8), none⟩) ∧
    assembleLine m ['E', 'N', 'C', '6', '4'] = some (some ⟨.action (.cmd 0x07#8), none⟩)

/-! ## The step, the end of a run, reset -/

/-- A write to `CMD` runs the command its word encodes, whole, in one step; a reserved word does nothing; no word
stops the machine, and the word is stored nowhere (R111). That the write is taken from the head of a queue, and the
rest of it stays, is the model's choice (log entry 2). -/
def Obligations.StepRunsTheDecodedCommand : Prop :=
  ∀ (s : State) (c : BitVec 8) (rest : List Input), s.inputs = .action (.cmd c) :: rest →
    (∀ i, decodeCmd c = .command i → step s = exec i { s with inputs := rest }) ∧
    (decodeCmd c = .reserved → step s = .next { s with inputs := rest }) ∧
    ∃ t, step s = .next t

/-- The word that `withFetchWord` places is the one the next step runs (log entry 6 says what it stands for). -/
def Obligations.PlacedWordRunsNext : Prop :=
  ∀ (s : State) (nbits w : Nat) (i : Instr), decodeTableWord nbits w = some i →
    step (s.withFetchWord nbits w) = exec i s

/-- A step performs the next host action and leaves the ones behind it waiting; with none waiting nothing changes
(R114 (c), R157; the queue is the model's own, log entries 2 and 3). -/
def Obligations.StepPerformsTheNextAction : Prop :=
  ∀ s : State,
    (∀ a rest, s.inputs = .action a :: rest → step s = perform Config.maxLen a { s with inputs := rest }) ∧
    (s.inputs = [] → step s = .next s) ∧
    8 ≤ Config.maxLen.val ∧ Config.maxLen.val ≤ 255

/-- What reset leaves, whatever the block held, and what the first command after it computes (R22). That reset is
taken from the queue, that the rest of the queue stays and that the values read stay are the model's choices: the two
lists are the host's and not state of the block (log entries 2, 4 and 5). -/
def Obligations.ResetClearsTheBlock : Prop :=
  (∀ (s : State) (rest : List Input), s.inputs = .reset :: rest →
    ∃ t, step s = .next t ∧ t.SameHardware State.reset ∧ t.inputs = rest ∧ t.readings = s.readings) ∧
  State.reset.val = 0x0000000000000000#64 ∧ State.reset.len = 0#8 ∧
  (∀ a, State.reset.buf.read a = 0x00#8) ∧ State.reset.acc = 0#64 ∧ State.reset.wrk = 0#64 ∧
  State.reset.seq = [] ∧
  ∀ w : Width, (∃ t, exec (.decodeOf w) State.reset = .next t ∧ t.val = 0#64) ∧
    ∃ t, exec (.encodeOf w) State.reset = .next t ∧ t.len.toNat = w.bits / 8 ∧ t.seq = zeros (w.bits / 8)

/-- R135, R116, R123: every command, every input and every step has its successor state, in every state. -/
def Obligations.NothingEverStops : Prop :=
  (∀ i s, Completes (exec i s)) ∧ (∀ m i s, Completes (absorb m i s)) ∧ ∀ s, Completes (step s)

/-- Every run of a finite program ends (R116). The second clause renders "nothing is pending" as the model's own
queue being empty after one step an input: the block itself has no queue (R10), and this one is the model's choice
(log entry 2). -/
def Obligations.RunsEndWithNothingPending : Prop :=
  (∀ (m : MaxLen) (p : List HostAction) (s : State), ∃ t, runActions m p s = .next t) ∧
  ∀ s : State, ∃ t, Host.Core.run core s.inputs.length s = .next t ∧ t.inputs = []

/-- The machine's steps over queued actions are the run of the program (R115). The queue is the model's choice
(log entry 2). -/
def Obligations.QueuedActionsRunAsTheProgram : Prop :=
  ∀ (p : List HostAction) (s : State), s.inputs = [] →
    Host.Core.run core p.length { s with inputs := p.map .action } = runActions Config.maxLen p s

/-! ## Invariants -/

/-- R21: `LEN` is at most MAXLEN after reset, and stays so through every step; after a decode command of width W,
VAL <= 2^W - 1. (R21 (b) and (c), the ranges of a Byte and of `VAL`, hold by their types.) -/
def Obligations.LengthNeverExceedsMaxlen : Prop :=
  (∀ m : MaxLen, State.reset.len.toNat ≤ m.val) ∧
  (∀ (m : MaxLen) (s t : State), s.len.toNat ≤ m.val → hostStep m s = .next t → t.len.toNat ≤ m.val) ∧
  (∀ (w : Width) (s t : State), exec (.decodeOf w) s = .next t → t.val.toNat ≤ 2 ^ w.bits - 1) ∧
  ∀ (s : State) (a : Nat), (s.buf.read a).toNat ≤ 255 ∧ s.val.toNat ≤ 2 ^ 64 - 1

/-- Every step keeps the legal states: `LEN` at most MAXLEN (R21), `BUF` inside the buffer space (R30), and the
buffer's list in its canonical form, which is the model's own (log entry 9). -/
def Obligations.StepKeepsStatesLegal : Prop :=
  (∀ s t : State, s.Legal Config.maxLen → step s = .next t → t.Legal Config.maxLen) ∧
  ∀ (m : MaxLen) (s t : State), s.Legal m → hostStep m s = .next t → t.Legal m

/-- The reset state is legal for every MAXLEN (R21, R22; the canonical form is the model's own, log entry 9). -/
def Obligations.ResetIsLegal : Prop := ∀ m : MaxLen, State.reset.Legal m

/-- R16, R100 (b): between host actions `WRK` is 0 in every state a run reaches from one where it is. -/
def Obligations.StepKeepsTheWorkingCopyEmpty : Prop :=
  ∀ s t : State, s.wrk = 0#64 → step s = .next t → t.wrk = 0#64

/-- R23: which action can change what. `VAL`: `WRVAL` and the decode commands. `LEN`: `WRLEN` and the encode
commands. `ACC`: the decode commands. `WRK`: the encode commands. A buffer byte: the `WRBUF` of its address, if that
is below MAXLEN, and the encode commands of more bytes than the address. -/
def Obligations.OnlyTheseActionsWrite : Prop :=
  ∀ (m : MaxLen) (a : HostAction) (s t : State), perform m a s = .next t →
    (t.val ≠ s.val → (∃ v, a = .wrval v) ∨ ∃ w, a = .cmd (encodeCmd (.decodeOf w))) ∧
    (t.len ≠ s.len → (∃ n, a = .wrlen n) ∨ ∃ w, a = .cmd (encodeCmd (.encodeOf w))) ∧
    (t.acc ≠ s.acc → ∃ w, a = .cmd (encodeCmd (.decodeOf w))) ∧
    (t.wrk ≠ s.wrk → ∃ w, a = .cmd (encodeCmd (.encodeOf w))) ∧
    (∀ x, t.buf.read x ≠ s.buf.read x →
      (∃ y b, a = .wrbuf y b ∧ y.toNat = x ∧ x < m.val) ∨
        ∃ w, a = .cmd (encodeCmd (.encodeOf w)) ∧ x < w.bytes) ∧
    t.inputs = s.inputs

/-- R17, R124: `ACC` and `WRK` cannot be observed. Two states that differ in them alone stay so through any input,
and any program shows the same from both; after a decode command `ACC` is the accumulation of the retained bytes and
after an encode command `WRK` is 0. -/
def Obligations.WorkingRegistersCannotBeObserved : Prop :=
  (∀ (m : MaxLen) (i : Input) (s t : State), s.SameVisible t →
    ∃ s' t', absorb m i s = .next s' ∧ absorb m i t = .next t' ∧ s'.SameVisible t') ∧
  (∀ (m : MaxLen) (p : List HostAction) (s t : State), s.SameVisible t →
    ∃ s' t', runActions m p s = .next s' ∧ runActions m p t = .next t' ∧ s'.observation = t'.observation) ∧
  (∀ (w : Width) (s t : State), exec (.decodeOf w) s = .next t → t.acc = acc64 (retained s.seq w)) ∧
  ∀ (w : Width) (s t : State), exec (.encodeOf w) s = .next t → t.wrk = 0#64

/-- R37: a read changes no state and yields the same value when it is repeated; every action performed twice in a
row leaves the state that performing it once leaves. -/
def Obligations.ActionsAreIdempotent : Prop :=
  (∀ (m : MaxLen) (a : HostAction) (s : State), a.reads = true →
    ∃ r t u, perform m a s = .next t ∧ t.SameHardware s ∧ t.readings = s.readings ++ [r] ∧
      perform m a t = .next u ∧ u.readings = s.readings ++ [r, r]) ∧
  ∀ (m : MaxLen) (a : HostAction) (s t : State), s.buf.wf → perform m a s = .next t →
    ∃ u, perform m a t = .next u ∧ u.SameHardware t

/-! ## The datapath -/

/-- R66: the accumulator step is a shift and an OR, which is `a * 256 + b` modulo 2^64. -/
def Obligations.AccumulatorStepIsModular : Prop :=
  ∀ (a : Word) (b : Byte),
    accStep a b = (a <<< 8) ||| b.setWidth 64 ∧ (accStep a b).toNat = (a.toNat * 256 + b.toNat) % 2 ^ 64

/-- R76: the laws of the datapath's operations, on unsigned values: the shifts by 8, the truncation, the mask and the
zero-extensions. -/
def Obligations.DatapathOperationLaws : Prop :=
  ∀ (a : Word) (b : Byte) (w : Width) (v : BitVec w.bits),
    (a <<< 8).toNat = a.toNat * 256 % 2 ^ 64 ∧ ((a <<< 8) ||| b.setWidth 64) = (a <<< 8) + b.setWidth 64 ∧
    (narrow w a).toNat = a.toNat % 2 ^ w.bits ∧ (lowByte a).toNat = a.toNat % 256 ∧
    lowByte a = a.extractLsb' 0 8 ∧ (a >>> 8).toNat = a.toNat / 256 ∧ (zext64 v).toNat = v.toNat

/-- R68: the closed form of the accumulation, exact up to 8 bytes and modulo 2^64 beyond; the bytes before the last
eight are shifted out. -/
def Obligations.AccumulationClosedForm : Prop :=
  (∀ r : ByteSequence, r.length ≤ 8 → (acc64 r).toNat = bigEndian r ∧ (acc64 r).toNat < 2 ^ (8 * r.length)) ∧
  ∀ r : ByteSequence, 8 < r.length →
    (acc64 r).toNat = bigEndian r % 2 ^ 64 ∧ acc64 r = acc64 (suffix r 8)

/-- R70: on what a command can produce, narrowing discards only zero bits. -/
def Obligations.NarrowingLosesNothing : Prop :=
  ∀ (s : ByteSequence) (w : Width),
    (retained s w).length = min s.length w.bytes ∧
    (acc64 (retained s w)).toNat < 2 ^ (8 * min s.length w.bytes) ∧
    2 ^ (8 * min s.length w.bytes) ≤ 2 ^ w.bits ∧
    zext64 (narrow w (acc64 (retained s w))) = acc64 (retained s w)

/-- R71: `decode(s, W)` is the number the retained bytes write; its special cases. -/
def Obligations.DecodeIsTheRetainedNumber : Prop :=
  ∀ w : Width,
    (∀ s, decode s w = narrow w (acc64 (retained s w)) ∧ (decode s w).toNat = bigEndian (retained s w)) ∧
    (decode [] w).toNat = 0 ∧ (∀ b, (decode [b] w).toNat = b.toNat) ∧
    ∀ s t : ByteSequence, w.bytes ≤ s.length → w.bytes ≤ t.length → suffix s w.bytes = suffix t w.bytes →
      decode s w = decode t w

/-- R72: a short input decodes as if padded on the left with zero bytes; the padding leaves the accumulator 0. -/
def Obligations.ShortInputIsZeroExtended : Prop :=
  (∀ (s : ByteSequence) (w : Width), s.length < w.bytes →
    decode s w = decode (zeros (w.bytes - s.length) ++ s) w) ∧
  accStep 0#64 0x00#8 = 0#64

/-- R75: byte j of `encode(v, W)` is the slice `v[8(K-j)-1 : 8(K-1-j)]`; leading zero bytes are kept. -/
def Obligations.EncodeClosedForm : Prop :=
  (∀ (w : Width) (v : BitVec w.bits) (j : Nat), j < w.bytes → ∃ b : Byte, (encode w v)[j]? = some b ∧
    b = v.extractLsb' (8 * (w.bytes - 1 - j)) 8 ∧ b.toNat = v.toNat / 256 ^ (w.bytes - 1 - j) % 256) ∧
  encode .w32 (0x2A#32) = [0x00#8, 0x00#8, 0x00#8, 0x2A#8]

/-! ## Laws of decode and encode -/

/-- R120: decoding an encoded value gives it back, as functions and through the block from any legal buffer. -/
def Obligations.DecodeOfEncodeRoundTrip : Prop :=
  (∀ (w : Width) (v : BitVec w.bits), decode (encode w v) w = v) ∧
  ∀ (m : MaxLen) (w : Width) (v : Word) (s : State), s.buf.wf →
    ∃ t, runActions m [.wrval v, .cmd (encodeCmd (.encodeOf w)), .cmd (encodeCmd (.decodeOf w))] s = .next t ∧
      t.val = zext64 (v.setWidth w.bits : BitVec w.bits) ∧ (v.toNat < 2 ^ w.bits → t.val = v)

/-- R121: every encoding has exactly W/8 bytes, as a function and in `LEN` after the command. -/
def Obligations.EncodedLengthIsFixed : Prop :=
  (∀ (w : Width) (v : BitVec w.bits), (encode w v).length = w.bits / 8) ∧
  ∀ (w : Width) (s : State), ∃ t, exec (.encodeOf w) s = .next t ∧ t.len.toNat = w.bits / 8

/-- R122: encode, decode, encode is encode. -/
def Obligations.EncodeDecodeEncodeIsEncode : Prop :=
  (∀ (w : Width) (v : BitVec w.bits), encode w (decode (encode w v) w) = encode w v) ∧
  ∀ (w : Width) (s : State), s.buf.wf →
    ∃ t u x, exec (.encodeOf w) s = .next t ∧ exec (.decodeOf w) t = .next u ∧ exec (.encodeOf w) u = .next x ∧
      x.len = t.len ∧ ∀ a, a < w.bytes → x.buf.read a = t.buf.read a

/-- R125: encoding a decoded sequence cuts it to its last K bytes or pads it with zeros to K bytes. -/
def Obligations.EncodeOfDecodeCutsOrPads : Prop :=
  (∀ (s : ByteSequence) (w : Width),
    encode w (decode s w) = zeros (w.bytes - min s.length w.bytes) ++ suffix s (min s.length w.bytes)) ∧
  ∀ (w : Width) (s : State), s.buf.wf →
    ∃ t u, exec (.decodeOf w) s = .next t ∧ exec (.encodeOf w) t = .next u ∧
      u.seq = zeros (w.bytes - min s.len.toNat w.bytes) ++ suffix s.seq (min s.len.toNat w.bytes)

/-- R126: `encode` is a bijection onto the sequences of K bytes, and `decode` is its inverse there. -/
def Obligations.EncodeIsABijection : Prop :=
  ∀ w : Width, Function.Injective (encode w) ∧ (∀ v, (encode w v).length = w.bytes ∧ decode (encode w v) w = v) ∧
    ∀ s : ByteSequence, s.length = w.bytes → encode w (decode s w) = s

/-- R127: leading zeros, and bytes in front of a sequence that is long enough, do not matter. -/
def Obligations.LeadingBytesDoNotMatter : Prop :=
  (∀ (s : ByteSequence) (w : Width) (n : Nat), decode (zeros n ++ s) w = decode s w) ∧
  ∀ (p s : ByteSequence) (w : Width), w.bytes ≤ s.length → decode (p ++ s) w = decode s w

/-- R128 and R129: decode at the smaller width is the truncation of decode at the larger, and encode at the smaller
width is a suffix of encode at the larger; the command writes it from address 0 on. -/
def Obligations.WidthsAgreeOnLowBytes : Prop :=
  ∀ w₁ w₂ : Width, w₁.bits < w₂.bits →
    (∀ s : ByteSequence, decode s w₁ = (decode s w₂).setWidth w₁.bits) ∧
    (∀ v : Word, encode w₁ (v.setWidth w₁.bits) = suffix (encode w₂ (v.setWidth w₂.bits)) (w₁.bits / 8)) ∧
    ∀ s : State, s.buf.wf → ∃ t, exec (.encodeOf w₁) s = .next t ∧
      t.buf.readRange 0 w₁.bytes = suffix (encode w₂ (s.val.setWidth w₂.bits)) (w₁.bits / 8)

/-- R130: changing width through the buffer leaves the low W1 bits, whichever way. -/
def Obligations.WidthChangesThroughTheBuffer : Prop :=
  ∀ (w₁ w₂ : Width) (s : State), w₁.bits < w₂.bits → s.buf.wf →
    (∃ t u, exec (.encodeOf w₂) s = .next t ∧ exec (.decodeOf w₁) t = .next u ∧ u.val = zext64 (s.valAt w₁)) ∧
    ∃ t u, exec (.encodeOf w₁) s = .next t ∧ exec (.decodeOf w₂) t = .next u ∧ u.val = zext64 (s.valAt w₁)

/-- R131: bounds of decode, and when the first encoded byte is zero. -/
def Obligations.DecodeAndEncodeBounds : Prop :=
  (∀ (s : ByteSequence) (w : Width), (decode s w).toNat ≤ 256 ^ min s.length w.bytes - 1 ∧
    256 ^ min s.length w.bytes - 1 ≤ 2 ^ w.bits - 1) ∧
  ∀ (w : Width) (v : BitVec w.bits), (∀ b ∈ encode w v, b.toNat ≤ 255) ∧
    (v.toNat < 2 ^ (w.bits - 8) → (encode w v)[0]? = some 0x00#8)

/-! ## The decode commands -/

/-- R85: every decode command, in every state: the loop over the bytes at LEN-n .. LEN-1, which are the retained bytes
of `seq(BUF, LEN)`, loads `ACC`, and all of `VAL` becomes `zext_64(decode(seq(BUF, LEN), W))`; nothing else changes. -/
def Obligations.DecodeCommandsDecodeTheSequence : Prop :=
  ∀ (w : Width) (s : State),
    s.buf.readRange (s.len.toNat - min s.len.toNat w.bytes) (min s.len.toNat w.bytes) = retained s.seq w ∧
    exec (.decodeOf w) s =
      .next { s with acc := acc64 (retained s.seq w), val := zext64 (decode s.seq w) }

/-- R86: `DEC8` loads the last byte of the sequence, 0 if there is none; it writes `ACC` and `VAL` only. -/
def Obligations.Dec8LoadsTheLastByte : Prop :=
  decodeCmd 0x00#8 = .command .dec8 ∧
  ∀ s : State,
    (s.len.toNat = 0 → exec .dec8 s = .next { s with acc := 0#64, val := 0#64 }) ∧
    (1 ≤ s.len.toNat → exec .dec8 s = .next { s with
      acc := (s.buf.read (s.len.toNat - 1)).setWidth 64, val := (s.buf.read (s.len.toNat - 1)).setWidth 64 }) ∧
    ∀ t, exec .dec8 s = .next t → t.val.toNat ≤ 0xFF ∧ t.val >>> 8 = 0#64

/-- R87: `DEC16` loads the last two bytes, the one byte there is, or 0; it writes `ACC` and `VAL` only. -/
def Obligations.Dec16LoadsTheLastTwoBytes : Prop :=
  decodeCmd 0x01#8 = .command .dec16 ∧
  ∀ s : State,
    (s.len.toNat = 0 → exec .dec16 s = .next { s with acc := 0#64, val := 0#64 }) ∧
    (s.len.toNat = 1 → exec .dec16 s = .next { s with
      acc := (s.buf.read 0).setWidth 64, val := (s.buf.read 0).setWidth 64 }) ∧
    (2 ≤ s.len.toNat → exec .dec16 s = .next { s with
      acc := (s.buf.read (s.len.toNat - 2)).setWidth 64 * 256#64 + (s.buf.read (s.len.toNat - 1)).setWidth 64,
      val := (s.buf.read (s.len.toNat - 2)).setWidth 64 * 256#64 + (s.buf.read (s.len.toNat - 1)).setWidth 64 }) ∧
    ∀ t, exec .dec16 s = .next t → t.val >>> 16 = 0#64

/-- R88: `DEC32` loads the number that the last min(LEN, 4) bytes write; it writes `ACC` and `VAL` only. -/
def Obligations.Dec32LoadsTheLastFourBytes : Prop :=
  decodeCmd 0x02#8 = .command .dec32 ∧
  ∀ (s : State) (n v : Nat), n = min s.len.toNat 4 →
    v = ∑ i ∈ Finset.range n, (s.buf.read (s.len.toNat - n + i)).toNat * 256 ^ (n - 1 - i) →
    exec .dec32 s = .next { s with acc := BitVec.ofNat 64 v, val := BitVec.ofNat 64 v } ∧
    v < 2 ^ (8 * n) ∧ (BitVec.ofNat 64 v) >>> 32 = 0#64 ∧ (s.len.toNat = 0 → v = 0)

/-- R89: `DEC64` loads the number that the last min(LEN, 8) bytes write, exactly; it writes `ACC` and `VAL` only. -/
def Obligations.Dec64LoadsTheLastEightBytes : Prop :=
  decodeCmd 0x03#8 = .command .dec64 ∧
  (∀ (s : State) (n v : Nat), n = min s.len.toNat 8 →
    v = ∑ i ∈ Finset.range n, (s.buf.read (s.len.toNat - n + i)).toNat * 256 ^ (n - 1 - i) →
    exec .dec64 s = .next { s with acc := BitVec.ofNat 64 v, val := BitVec.ofNat 64 v } ∧
    v < 2 ^ (8 * n) ∧ (s.len.toNat = 0 → v = 0)) ∧
  ∀ a : Word, zext64 (narrow .w64 a) = a

/-- R90: what a decode command's result cannot depend on (the bytes outside the last K of the sequence, the old
`VAL`), that its bits above W are 0, and that repeating it gives the same `VAL`. -/
def Obligations.DecodeCornerCases : Prop :=
  ∀ w : Width,
    (∀ s t : State, s.len = t.len →
      (∀ a, s.len.toNat - w.bytes ≤ a → a < s.len.toNat → s.buf.read a = t.buf.read a) →
      ∃ s' t', exec (.decodeOf w) s = .next s' ∧ exec (.decodeOf w) t = .next t' ∧ s'.val = t'.val) ∧
    ∀ s : State, ∃ t u, exec (.decodeOf w) s = .next t ∧ exec (.decodeOf w) t = .next u ∧ u.val = t.val ∧
      t.val >>> w.bits = 0#64 ∧ t.val.toNat = bigEndian (retained s.seq w) ∧
      t.val.toNat ≤ 2 ^ (8 * min s.len.toNat w.bytes) - 1

/-- The frame of `DEC8`, `DEC16`, `DEC32` and `DEC64` (R23, R85): every byte of `BUF`, `LEN`, `WRK` and the bookkeeping
are unchanged; `ACC` and `VAL` are the destinations. -/
def Obligations.DecodeCommandsFrame : Prop :=
  ∀ (i : Instr) (s t : State), i ∈ [Instr.dec8, .dec16, .dec32, .dec64] → exec i s = .next t →
    (∀ a, t.buf.read a = s.buf.read a) ∧ t.len = s.len ∧ t.wrk = s.wrk ∧ t.inputs = s.inputs ∧
      t.readings = s.readings

/-! ## The encode commands -/

/-- R95: every encode command, from any canonical buffer: `encode(VAL[W-1:0], W)` at addresses 0 .. K-1, `LEN <- K`, the
working copy emptied, and nothing else changed; afterwards `seq(BUF, LEN)` is that encoding. -/
def Obligations.EncodeCommandsEncodeTheValue : Prop :=
  ∀ (w : Width) (s : State), s.buf.wf →
    ∃ t, exec (.encodeOf w) s = .next t ∧
      t = { s with wrk := 0#64, buf := s.buf.writeRange 0 (encode w (s.val.setWidth w.bits)),
                   len := BitVec.ofNat 8 (w.bits / 8) } ∧
      t.seq = encode w (s.val.setWidth w.bits) ∧ t.seq.length = w.bytes ∧
      ∀ a, w.bytes ≤ a → t.buf.read a = s.buf.read a

/-- R96: `ENC8` writes `VAL[7:0]` at address 0 and `LEN <- 1`; `WRK` is left 0, nothing else changes. -/
def Obligations.Enc8WritesOneByte : Prop :=
  decodeCmd 0x04#8 = .command .enc8 ∧
  ∀ s : State,
    exec .enc8 s = .next { s with wrk := 0#64, len := 1#8, buf := s.buf.write 0 (s.val.extractLsb' 0 8) } ∧
    (s.buf.wf → ∀ t, exec .enc8 s = .next t → t.seq = [s.val.extractLsb' 0 8] ∧
      ∀ a, 1 ≤ a → t.buf.read a = s.buf.read a)

/-- R97: `ENC16` writes `VAL[15:8]`, `VAL[7:0]` at addresses 0, 1 and `LEN <- 2`; `WRK` is left 0, nothing else
changes. -/
def Obligations.Enc16WritesTwoBytes : Prop :=
  decodeCmd 0x05#8 = .command .enc16 ∧
  ∀ s : State,
    exec .enc16 s = .next { s with
      wrk := 0#64, len := 2#8,
      buf := (s.buf.write 1 (s.val.extractLsb' 0 8)).write 0 (s.val.extractLsb' 8 8) } ∧
    (s.buf.wf → ∀ t, exec .enc16 s = .next t → t.seq = [s.val.extractLsb' 8 8, s.val.extractLsb' 0 8] ∧
      ∀ a, 2 ≤ a → t.buf.read a = s.buf.read a)

/-- R98: `ENC32` writes the four low bytes of `VAL`, most significant first, at addresses 0 .. 3 and `LEN <- 4`; `WRK` is
left 0, nothing else changes. -/
def Obligations.Enc32WritesFourBytes : Prop :=
  decodeCmd 0x06#8 = .command .enc32 ∧
  ∀ s : State,
    exec .enc32 s = .next { s with
      wrk := 0#64, len := 4#8,
      buf := (((s.buf.write 3 (s.val.extractLsb' 0 8)).write 2 (s.val.extractLsb' 8 8)).write 1
        (s.val.extractLsb' 16 8)).write 0 (s.val.extractLsb' 24 8) } ∧
    (s.buf.wf → ∀ t, exec .enc32 s = .next t →
      t.seq = [s.val.extractLsb' 24 8, s.val.extractLsb' 16 8, s.val.extractLsb' 8 8, s.val.extractLsb' 0 8] ∧
      ∀ a, 4 ≤ a → t.buf.read a = s.buf.read a)

/-- R99: `ENC64` writes all eight bytes of `VAL`, most significant first, at addresses 0 .. 7 and `LEN <- 8`; `WRK` is
left 0, nothing else changes. -/
def Obligations.Enc64WritesEightBytes : Prop :=
  decodeCmd 0x07#8 = .command .enc64 ∧
  ∀ s : State,
    exec .enc64 s = .next { s with
      wrk := 0#64, len := 8#8,
      buf := (((((((s.buf.write 7 (s.val.extractLsb' 0 8)).write 6 (s.val.extractLsb' 8 8)).write 5
        (s.val.extractLsb' 16 8)).write 4 (s.val.extractLsb' 24 8)).write 3 (s.val.extractLsb' 32 8)).write 2
        (s.val.extractLsb' 40 8)).write 1 (s.val.extractLsb' 48 8)).write 0 (s.val.extractLsb' 56 8) } ∧
    (s.buf.wf → ∀ t, exec .enc64 s = .next t →
      t.seq = [s.val.extractLsb' 56 8, s.val.extractLsb' 48 8, s.val.extractLsb' 40 8, s.val.extractLsb' 32 8,
        s.val.extractLsb' 24 8, s.val.extractLsb' 16 8, s.val.extractLsb' 8 8, s.val.extractLsb' 0 8] ∧
      ∀ a, 8 ≤ a → t.buf.read a = s.buf.read a)

/-- R100: the bytes written are the K low-order bytes of `VAL`, most significant first, whatever `BUF` and `LEN` were;
`VAL` is unchanged, `WRK` is 0, `LEN` is K; repeating the command changes nothing. -/
def Obligations.EncodeCornerCases : Prop :=
  ∀ (w : Width) (s : State), s.buf.wf →
    ∃ t, exec (.encodeOf w) s = .next t ∧ exec (.encodeOf w) t = .next t ∧ t.val = s.val ∧ t.wrk = 0#64 ∧
      t.len.toNat = w.bytes ∧
      (∀ j, j < w.bytes → t.buf.read j = s.val.extractLsb' (8 * (w.bytes - 1 - j)) 8) ∧
      ∀ a, w.bytes ≤ a → t.buf.read a = s.buf.read a

/-- The frame of `ENC8`, `ENC16`, `ENC32` and `ENC64` (R23, R95), in every state: `VAL`, `ACC` and the bookkeeping are
unchanged, and so is every byte outside the K bytes stored at address 0; `WRK` and `LEN` are destinations too. -/
def Obligations.EncodeCommandsFrame : Prop :=
  ∀ (i : Instr) (s t : State), i ∈ [Instr.enc8, .enc16, .enc32, .enc64] → exec i s = .next t →
    (∀ a, 0 + i.width.bytes ≤ a → t.buf.read a = s.buf.read a) ∧ t.val = s.val ∧ t.acc = s.acc ∧
      t.inputs = s.inputs ∧ t.readings = s.readings

/-! ## The host's access -/

/-- R105: `WRVAL v` writes all 64 bits; a later encode command ignores the bits above its width and the register keeps
them. -/
def Obligations.WrvalWritesTheWholeRegister : Prop :=
  ∀ (m : MaxLen) (v : Word) (s : State),
    perform m (.wrval v) s = .next { s with val := v } ∧
    ∀ w : Width, s.buf.wf →
      ∃ t, runActions m [.wrval v, .cmd (encodeCmd (.encodeOf w))] s = .next t ∧ t.val = v ∧
        t.seq = encode w (v.setWidth w.bits)

/-- R106: `RDVAL` yields `VAL` and changes no state; what it yields after reset, after a decode and after an encode
command. -/
def Obligations.RdvalYieldsTheRegister : Prop :=
  ∀ (m : MaxLen) (s : State),
    perform m .rdval s = .next { s with readings := s.readings ++ [.val s.val] } ∧
    (∃ t, perform m .rdval State.reset = .next t ∧ t.readings = [.val 0#64]) ∧
    ∀ w : Width,
      (∃ t v, runActions m [.cmd (encodeCmd (.decodeOf w)), .rdval] s = .next t ∧
        t.readings = s.readings ++ [.val v] ∧ v.toNat ≤ 2 ^ w.bits - 1) ∧
      ∃ t, runActions m [.cmd (encodeCmd (.encodeOf w)), .rdval] s = .next t ∧
        t.readings = s.readings ++ [.val s.val]

/-- R107: `WRLEN n` stores min(n, MAXLEN) and touches nothing else; the sequence is then that many bytes of the buffer
as it stands. -/
def Obligations.WrlenStoresTheClampedLength : Prop :=
  ∀ (m : MaxLen) (n : BitVec 8) (s : State),
    (n.toNat ≤ m.val → perform m (.wrlen n) s = .next { s with len := n }) ∧
    (m.val < n.toNat → perform m (.wrlen n) s = .next { s with len := BitVec.ofNat 8 m.val }) ∧
    (m.val = 255 → perform m (.wrlen n) s = .next { s with len := n }) ∧
    ∀ t, perform m (.wrlen n) s = .next t →
      t.len.toNat = min n.toNat m.val ∧ t.seq = s.buf.readRange 0 (min n.toNat m.val)

/-- R108: `RDLEN` yields `LEN` and changes no state; it is at most MAXLEN in a legal state, W/8 after an encode command,
and not changed by a decode command. -/
def Obligations.RdlenYieldsTheLength : Prop :=
  ∀ (m : MaxLen) (s : State),
    perform m .rdlen s = .next { s with readings := s.readings ++ [.len s.len] } ∧
    (s.Legal m → s.len.toNat ≤ m.val) ∧
    ∀ w : Width,
      (∃ t, runActions m [.cmd (encodeCmd (.encodeOf w)), .rdlen] s = .next t ∧
        t.readings = s.readings ++ [.len (BitVec.ofNat 8 (w.bits / 8))]) ∧
      ∃ t, runActions m [.cmd (encodeCmd (.decodeOf w)), .rdlen] s = .next t ∧
        t.readings = s.readings ++ [.len s.len]

/-- R109: `WRBUF a, b` writes one byte below MAXLEN, is dropped at or above it, and never changes `LEN`. -/
def Obligations.WrbufWritesOneByte : Prop :=
  ∀ (m : MaxLen) (a : BitVec 8) (b : Byte) (s : State),
    (m.val ≤ a.toNat → perform m (.wrbuf a b) s = .next s) ∧
    (a.toNat < m.val → perform m (.wrbuf a b) s = .next { s with buf := s.buf.write a.toNat b }) ∧
    (a.toNat < m.val → s.buf.wf → ∀ t, perform m (.wrbuf a b) s = .next t →
      t.buf.read a.toNat = b ∧ (∀ x, x ≠ a.toNat → t.buf.read x = s.buf.read x) ∧ t.len = s.len ∧
      t.seq = s.seq.set a.toNat b)

/-- R110: `RDBUF a` yields the byte below MAXLEN, in the sequence or beyond it, and 0x00 at or above; it changes no
state. -/
def Obligations.RdbufYieldsOneByte : Prop :=
  ∀ (m : MaxLen) (a : BitVec 8) (s : State),
    (a.toNat < m.val →
      perform m (.rdbuf a) s = .next { s with readings := s.readings ++ [.buf (s.buf.read a.toNat)] }) ∧
    (m.val ≤ a.toNat → perform m (.rdbuf a) s = .next { s with readings := s.readings ++ [.buf 0x00#8] })

/-- R40 (a): a read of a buffer byte yields the latest write to it, through any actions that neither write that
address nor run a command. -/
def Obligations.ReadsSeeTheLatestWrite : Prop :=
  ∀ (m : MaxLen) (a : BitVec 8) (b : Byte) (p : List HostAction) (s : State), a.toNat < m.val → s.buf.wf →
    (∀ x ∈ p, (∀ c, x ≠ .cmd c) ∧ ∀ b', x ≠ .wrbuf a b') →
    ∃ t u, runActions m (.wrbuf a b :: p) s = .next t ∧ perform m (.rdbuf a) t = .next u ∧
      u.readings = t.readings ++ [.buf b]

/-- R112, R113: `RDCMD` yields 0x00 whatever was last written to `CMD`, and changes no state; a reserved word changes no
state. -/
def Obligations.CommandPortStoresNothing : Prop :=
  (∀ (m : MaxLen) (s : State), perform m .rdcmd s = .next { s with readings := s.readings ++ [.cmd 0x00#8] }) ∧
  (∀ (m : MaxLen) (c : BitVec 8) (s : State), ∃ t, runActions m [.cmd c, .rdcmd] s = .next t ∧
    t.readings = s.readings ++ [.cmd 0x00#8]) ∧
  ∀ (m : MaxLen) (c : BitVec 8) (s : State), 0x08 ≤ c.toNat → c.toNat ≤ 0xFF → perform m (.cmd c) s = .next s

/-- R60: `PUTSEQ` makes its bytes the sequence and leaves the bytes past them as they were; `GETSEQ` yields the length
and the sequence. -/
def Obligations.PutseqAndGetseqMoveTheSequence : Prop :=
  (∀ (m : MaxLen) (q : ByteSequence) (k : Nat) (s : State), (Statement.putSeq q).wf m = true → s.buf.wf →
    ∃ t, runActions m ((Statement.putSeq q).expand k) s = .next t ∧ t.seq = q ∧ t.len.toNat = q.length ∧
      (∀ a, q.length ≤ a → t.buf.read a = s.buf.read a) ∧ t.val = s.val ∧ t.acc = s.acc ∧ t.wrk = s.wrk ∧
      t.readings = s.readings) ∧
  ∀ (m : MaxLen) (s : State), s.Legal m →
    ∃ t, runActions m (Statement.getSeq.expand s.len.toNat) s = .next t ∧
      t.readings = s.readings ++ .len s.len :: s.seq.map .buf ∧ t.SameHardware s

/-- R114 (b): how a host gets `decode(s, W)` and `encode(v, W)` from the block, from any canonical buffer. -/
def Obligations.HostGetsDecodeAndEncode : Prop :=
  (∀ (m : MaxLen) (q : ByteSequence) (w : Width) (s : State), q.length ≤ m.val → s.buf.wf →
    ∃ t, runActions m ((Statement.putSeq q).expand 0 ++ [.cmd (encodeCmd (.decodeOf w)), .rdval]) s = .next t ∧
      t.readings = s.readings ++ [.val (zext64 (decode q w))]) ∧
  ∀ (m : MaxLen) (w : Width) (v : BitVec w.bits) (s : State), s.buf.wf →
    ∃ t, runActions m
        ([.wrval (zext64 v), .cmd (encodeCmd (.encodeOf w))] ++ Statement.getSeq.expand w.bytes) s = .next t ∧
      t.readings = s.readings ++ .len (BitVec.ofNat 8 w.bytes) :: (encode w v).map .buf
end

