-- ==== Sys2Proof/Laws/Memory.lean ====
section
/-!
SUPPORT. The laws of the buffer: a read after a write, that every operation keeps the canonical form and the
bounds, and that canonical buffers with equal bytes are equal lists.
-/

namespace Sys2Proof.Machine

@[simp] theorem Memory.read_nil (a : Nat) : Memory.read [] a = Memory.unlisted := rfl

/-- An address that the list does not hold reads as the unlisted value. -/
theorem Memory.read_of_not_listed {m : Memory} {a : Nat} (h : ∀ c ∈ m, c.1 ≠ a) :
    m.read a = Memory.unlisted := by
  induction m with
  | nil => rfl
  | cons c m ih =>
    obtain ⟨x, b⟩ := c
    have hx : a ≠ x := fun e => h (x, b) (by simp) e.symm
    simp only [Memory.read, if_neg hx]
    exact ih fun c hc => h c (List.mem_cons_of_mem _ hc)

/-- A canonical buffer, taken apart at its first entry. -/
theorem Memory.wf_cons {x : Nat} {c : Byte} {m : Memory} :
    Memory.wf ((x, c) :: m) ↔ (∀ d ∈ m, x < d.1) ∧ c ≠ Memory.unlisted ∧ m.wf := by
  simp only [Memory.wf, List.pairwise_cons, List.forall_mem_cons]
  tauto

/-- A write changes no other address, in any buffer. -/
theorem Memory.read_write_other (m : Memory) {a a' : Nat} (b : Byte) (h : a' ≠ a) :
    (m.write a b).read a' = m.read a' := by
  induction m with
  | nil => by_cases hb : b = Memory.unlisted <;> simp [Memory.write, Memory.read, hb, h]
  | cons c m ih =>
    obtain ⟨x, c⟩ := c
    simp only [Memory.write]
    split
    · split <;> simp [Memory.read, h]
    · split
      · subst x
        split <;> simp [Memory.read, h]
      · simp only [Memory.read, ih]

/-- A read after a write to the same address, in a canonical buffer. -/
theorem Memory.read_write_same {m : Memory} (hm : m.wf) (a : Nat) (b : Byte) :
    (m.write a b).read a = b := by
  induction m with
  | nil => by_cases hb : b = Memory.unlisted <;> simp [Memory.write, Memory.read, hb]
  | cons c m ih =>
    obtain ⟨x, c⟩ := c
    obtain ⟨hlt, -, hm⟩ := Memory.wf_cons.mp hm
    simp only [Memory.write]
    split
    next hax =>
      split
      next hb =>
        rw [hb]
        refine Memory.read_of_not_listed fun d hd => ?_
        rcases List.mem_cons.mp hd with rfl | hd
        · exact Nat.ne_of_gt hax
        · have := hlt d hd
          omega
      next => simp [Memory.read]
    next hax =>
      split
      next hx =>
        subst hx
        split
        next hb =>
          rw [hb]
          exact Memory.read_of_not_listed fun d hd => Nat.ne_of_gt (hlt d hd)
        next => simp [Memory.read]
      next hx => simp only [Memory.read, if_neg hx, ih hm]

/-- What a write leaves at an address, in a canonical buffer. -/
theorem Memory.read_write {m : Memory} (hm : m.wf) (a a' : Nat) (b : Byte) :
    (m.write a b).read a' = if a' = a then b else m.read a' := by
  split
  next h => rw [h, Memory.read_write_same hm]
  next h => exact Memory.read_write_other m b h

/-- Every entry of the written buffer was there before or is the one written. -/
theorem Memory.mem_write {m : Memory} {a : Nat} {b : Byte} {d : Host.Cell} (h : d ∈ m.write a b) :
    d ∈ m ∨ d = (a, b) := by
  induction m with
  | nil =>
    simp only [Memory.write] at h
    split at h <;> simp_all
  | cons c m ih =>
    obtain ⟨x, c⟩ := c
    simp only [Memory.write] at h
    split at h
    · split at h <;> (simp_all; try tauto)
    · split at h
      · split at h <;> (simp_all; try tauto)
      · rcases List.mem_cons.mp h with rfl | h
        · exact .inl (by simp)
        · exact (ih h).imp (List.mem_cons_of_mem _) id

/-- A write keeps the canonical form. -/
theorem Memory.write_wf {m : Memory} (hm : m.wf) (a : Nat) (b : Byte) : (m.write a b).wf := by
  induction m with
  | nil =>
    simp only [Memory.write]
    split
    · exact hm
    next hb => simp [Memory.wf, hb]
  | cons c m ih =>
    obtain ⟨x, c⟩ := c
    obtain ⟨hlt, hc, hm'⟩ := Memory.wf_cons.mp hm
    simp only [Memory.write]
    split
    next hax =>
      split
      · exact hm
      next hb =>
        refine Memory.wf_cons.mpr ⟨fun d hd => ?_, hb, hm⟩
        rcases List.mem_cons.mp hd with rfl | hd
        · exact hax
        · exact Nat.lt_trans hax (hlt d hd)
    next hax =>
      split
      next hx =>
        subst hx
        split
        · exact hm'
        next hb => exact Memory.wf_cons.mpr ⟨hlt, hb, hm'⟩
      next hx =>
        refine Memory.wf_cons.mpr ⟨fun d hd => ?_, hc, ih hm'⟩
        rcases Memory.mem_write hd with hd | rfl
        · exact hlt d hd
        · show x < a
          omega

/-- A write below a bound keeps the buffer below it. -/
theorem Memory.write_below {m : Memory} {n a : Nat} (hm : m.below n) (ha : a < n) (b : Byte) :
    (m.write a b).below n := by
  intro d hd
  rcases Memory.mem_write hd with hd | rfl
  · exact hm d hd
  · exact ha

/-- An address at or above a bound of the buffer reads as the unlisted value. -/
theorem Memory.read_above {m : Memory} {n a : Nat} (hm : m.below n) (ha : n ≤ a) :
    m.read a = Memory.unlisted :=
  Memory.read_of_not_listed fun c hc => by
    have := hm c hc
    omega

/-- Canonical buffers with the same bytes are the same list. -/
theorem Memory.ext_of_read {m m' : Memory} (hm : m.wf) (hm' : m'.wf) (h : ∀ a, m.read a = m'.read a) :
    m = m' := by
  induction m generalizing m' with
  | nil =>
    cases m' with
    | nil => rfl
    | cons c m' =>
      obtain ⟨x, c⟩ := c
      have := h x
      simp only [Memory.read, if_true] at this
      exact absurd this.symm (Memory.wf_cons.mp hm').2.1
  | cons c m ih =>
    obtain ⟨x, c⟩ := c
    obtain ⟨hlt, hc, hm₁⟩ := Memory.wf_cons.mp hm
    cases m' with
    | nil =>
      have := h x
      simp only [Memory.read, if_true] at this
      exact absurd this hc
    | cons c' m' =>
      obtain ⟨x', c'⟩ := c'
      obtain ⟨hlt', hc', hm₁'⟩ := Memory.wf_cons.mp hm'
      have hxx : x = x' := by
        rcases Nat.lt_trichotomy x x' with hx | hx | hx
        · have := h x
          rw [Memory.read_of_not_listed (m := (x', c') :: m')] at this
          · simp only [Memory.read, if_true] at this
            exact absurd this hc
          · intro d hd
            rcases List.mem_cons.mp hd with rfl | hd
            · exact Nat.ne_of_gt hx
            · have := hlt' d hd
              omega
        · exact hx
        · have := h x'
          rw [Memory.read_of_not_listed (m := (x, c) :: m)] at this
          · simp only [Memory.read, if_true] at this
            exact absurd this.symm hc'
          · intro d hd
            rcases List.mem_cons.mp hd with rfl | hd
            · exact Nat.ne_of_gt hx
            · have := hlt d hd
              omega
      subst hxx
      have hcc : c = c' := by simpa [Memory.read] using h x
      subst hcc
      refine congrArg _ (ih hm₁ hm₁' fun a => ?_)
      by_cases ha : a = x
      · subst ha
        rw [Memory.read_of_not_listed fun d hd => Nat.ne_of_gt (hlt d hd),
          Memory.read_of_not_listed fun d hd => Nat.ne_of_gt (hlt' d hd)]
      · simpa [Memory.read, ha] using h a

@[simp] theorem Memory.readRange_length (m : Memory) (a n : Nat) : (m.readRange a n).length = n := by
  induction n generalizing a with
  | zero => rfl
  | succ n ih => simp [Memory.readRange, ih]

/-- The i-th byte of a range is the byte at its i-th address. -/
theorem Memory.readRange_getElem (m : Memory) (a n i : Nat) (h : i < (m.readRange a n).length) :
    (m.readRange a n)[i] = m.read (a + i) := by
  induction n generalizing a i with
  | zero => simp [Memory.readRange] at h
  | succ n ih =>
    cases i with
    | zero => rfl
    | succ i =>
      simp only [Memory.readRange, List.getElem_cons_succ]
      rw [ih]
      congr 1
      omega

/-- Dropping the first k bytes of a range leaves the range k addresses on. -/
theorem Memory.readRange_drop (m : Memory) (a n k : Nat) :
    (m.readRange a n).drop k = m.readRange (a + k) (n - k) := by
  induction k generalizing a n with
  | zero => rfl
  | succ k ih =>
    cases n with
    | zero => simp [Memory.readRange]
    | succ n =>
      simp only [Memory.readRange, List.drop_succ_cons, ih, Nat.add_sub_add_right]
      congr 1
      omega

/-- Ranges of equal bytes are equal. -/
theorem Memory.readRange_congr {m m' : Memory} {a n : Nat} (h : ∀ i < n, m.read (a + i) = m'.read (a + i)) :
    m.readRange a n = m'.readRange a n := by
  refine List.ext_getElem (by simp) fun i h₁ h₂ => ?_
  rw [Memory.readRange_getElem, Memory.readRange_getElem]
  exact h i (by simpa using h₁)

/-- `MemWrite` keeps the canonical form. -/
theorem Memory.writeRange_wf {m : Memory} (hm : m.wf) (a : Nat) (s : ByteSequence) : (m.writeRange a s).wf := by
  induction s generalizing m a with
  | nil => exact hm
  | cons b s ih => exact ih (Memory.write_wf hm a b) (a + 1)

/-- `MemWrite` within a bound keeps the buffer below it. -/
theorem Memory.writeRange_below {m : Memory} {n a : Nat} (hm : m.below n) (s : ByteSequence)
    (h : a + s.length ≤ n) : (m.writeRange a s).below n := by
  induction s generalizing m a with
  | nil => exact hm
  | cons b s ih =>
    simp only [List.length_cons] at h
    exact ih (Memory.write_below hm (by omega) b) (by omega)

/-- What `MemWrite` leaves at an address, in a canonical buffer. -/
theorem Memory.read_writeRange {m : Memory} (hm : m.wf) (a : Nat) (s : ByteSequence) (a' : Nat) :
    (m.writeRange a s).read a' =
      if h : a ≤ a' ∧ a' - a < s.length then s[a' - a] else m.read a' := by
  induction s generalizing m a with
  | nil => simp [Memory.writeRange]
  | cons b s ih =>
    simp only [Memory.writeRange, ih (Memory.write_wf hm a b), Memory.read_write hm]
    by_cases h₁ : a' = a
    · subst h₁
      simp
    · by_cases h₂ : a + 1 ≤ a' ∧ a' - (a + 1) < s.length
      · have h₃ : a ≤ a' ∧ a' - a < (b :: s).length := by simp only [List.length_cons]; omega
        have h₄ : a' - a = a' - (a + 1) + 1 := by omega
        simp [h₂, h₃, h₄]
      · have h₃ : ¬(a ≤ a' ∧ a' - a < (b :: s).length) := by simp only [List.length_cons]; omega
        simp only [dif_neg h₂, dif_neg h₃, if_neg h₁]

end Sys2Proof.Machine
end

