-- ==== Sys2Proof/Laws/State.lean ====
section
/-!
SUPPORT. What each named update of the state leaves in each field: one lemma a field and update.
-/

namespace Sys2Proof.Machine

variable (s : State)

@[simp] theorem State.setVal_val (v : Word) : (s.setVal v).val = v := rfl
@[simp] theorem State.setVal_buf (v : Word) : (s.setVal v).buf = s.buf := rfl
@[simp] theorem State.setVal_len (v : Word) : (s.setVal v).len = s.len := rfl
@[simp] theorem State.setVal_acc (v : Word) : (s.setVal v).acc = s.acc := rfl
@[simp] theorem State.setVal_wrk (v : Word) : (s.setVal v).wrk = s.wrk := rfl
@[simp] theorem State.setVal_inputs (v : Word) : (s.setVal v).inputs = s.inputs := rfl
@[simp] theorem State.setVal_readings (v : Word) : (s.setVal v).readings = s.readings := rfl

@[simp] theorem State.setBuf_val (m : Memory) : (s.setBuf m).val = s.val := rfl
@[simp] theorem State.setBuf_buf (m : Memory) : (s.setBuf m).buf = m := rfl
@[simp] theorem State.setBuf_len (m : Memory) : (s.setBuf m).len = s.len := rfl
@[simp] theorem State.setBuf_acc (m : Memory) : (s.setBuf m).acc = s.acc := rfl
@[simp] theorem State.setBuf_wrk (m : Memory) : (s.setBuf m).wrk = s.wrk := rfl
@[simp] theorem State.setBuf_inputs (m : Memory) : (s.setBuf m).inputs = s.inputs := rfl
@[simp] theorem State.setBuf_readings (m : Memory) : (s.setBuf m).readings = s.readings := rfl

@[simp] theorem State.setLen_val (n : BitVec 8) : (s.setLen n).val = s.val := rfl
@[simp] theorem State.setLen_buf (n : BitVec 8) : (s.setLen n).buf = s.buf := rfl
@[simp] theorem State.setLen_len (n : BitVec 8) : (s.setLen n).len = n := rfl
@[simp] theorem State.setLen_acc (n : BitVec 8) : (s.setLen n).acc = s.acc := rfl
@[simp] theorem State.setLen_wrk (n : BitVec 8) : (s.setLen n).wrk = s.wrk := rfl
@[simp] theorem State.setLen_inputs (n : BitVec 8) : (s.setLen n).inputs = s.inputs := rfl
@[simp] theorem State.setLen_readings (n : BitVec 8) : (s.setLen n).readings = s.readings := rfl

@[simp] theorem State.setAcc_val (a : Word) : (s.setAcc a).val = s.val := rfl
@[simp] theorem State.setAcc_buf (a : Word) : (s.setAcc a).buf = s.buf := rfl
@[simp] theorem State.setAcc_len (a : Word) : (s.setAcc a).len = s.len := rfl
@[simp] theorem State.setAcc_acc (a : Word) : (s.setAcc a).acc = a := rfl
@[simp] theorem State.setAcc_wrk (a : Word) : (s.setAcc a).wrk = s.wrk := rfl
@[simp] theorem State.setAcc_inputs (a : Word) : (s.setAcc a).inputs = s.inputs := rfl
@[simp] theorem State.setAcc_readings (a : Word) : (s.setAcc a).readings = s.readings := rfl

@[simp] theorem State.setWrk_val (w : Word) : (s.setWrk w).val = s.val := rfl
@[simp] theorem State.setWrk_buf (w : Word) : (s.setWrk w).buf = s.buf := rfl
@[simp] theorem State.setWrk_len (w : Word) : (s.setWrk w).len = s.len := rfl
@[simp] theorem State.setWrk_acc (w : Word) : (s.setWrk w).acc = s.acc := rfl
@[simp] theorem State.setWrk_wrk (w : Word) : (s.setWrk w).wrk = w := rfl
@[simp] theorem State.setWrk_inputs (w : Word) : (s.setWrk w).inputs = s.inputs := rfl
@[simp] theorem State.setWrk_readings (w : Word) : (s.setWrk w).readings = s.readings := rfl

@[simp] theorem State.setInputs_val (r : List Input) : (s.setInputs r).val = s.val := rfl
@[simp] theorem State.setInputs_buf (r : List Input) : (s.setInputs r).buf = s.buf := rfl
@[simp] theorem State.setInputs_len (r : List Input) : (s.setInputs r).len = s.len := rfl
@[simp] theorem State.setInputs_acc (r : List Input) : (s.setInputs r).acc = s.acc := rfl
@[simp] theorem State.setInputs_wrk (r : List Input) : (s.setInputs r).wrk = s.wrk := rfl
@[simp] theorem State.setInputs_inputs (r : List Input) : (s.setInputs r).inputs = r := rfl
@[simp] theorem State.setInputs_readings (r : List Input) : (s.setInputs r).readings = s.readings := rfl

@[simp] theorem State.yield_val (r : Reading) : (s.yield r).val = s.val := rfl
@[simp] theorem State.yield_buf (r : Reading) : (s.yield r).buf = s.buf := rfl
@[simp] theorem State.yield_len (r : Reading) : (s.yield r).len = s.len := rfl
@[simp] theorem State.yield_acc (r : Reading) : (s.yield r).acc = s.acc := rfl
@[simp] theorem State.yield_wrk (r : Reading) : (s.yield r).wrk = s.wrk := rfl
@[simp] theorem State.yield_inputs (r : Reading) : (s.yield r).inputs = s.inputs := rfl
@[simp] theorem State.yield_readings (r : Reading) : (s.yield r).readings = s.readings ++ [r] := rfl

@[simp] theorem State.applyReset_val : (s.applyReset).val = 0#64 := rfl
@[simp] theorem State.applyReset_buf : (s.applyReset).buf = [] := rfl
@[simp] theorem State.applyReset_len : (s.applyReset).len = 0#8 := rfl
@[simp] theorem State.applyReset_acc : (s.applyReset).acc = 0#64 := rfl
@[simp] theorem State.applyReset_wrk : (s.applyReset).wrk = 0#64 := rfl
@[simp] theorem State.applyReset_inputs : (s.applyReset).inputs = s.inputs := rfl
@[simp] theorem State.applyReset_readings : (s.applyReset).readings = s.readings := rfl

/-- The sequence depends on `BUF` and `LEN` only (R12). -/
theorem State.seq_congr {s t : State} (hb : s.buf = t.buf) (hl : s.len = t.len) : s.seq = t.seq := by
  simp only [State.seq, hb, hl]

end Sys2Proof.Machine
end

