-- ==== Sys2Proof/Laws/Commands.lean ====
section
/-!
SUPPORT. What the shared operations of the commands can do, said once: the loops of R85 and R95, and the one
outcome of each command.
-/

namespace Sys2Proof

theorem Width.bytes_pos (w : Width) : 0 < w.bytes := by cases w <;> decide

theorem Width.bytes_le (w : Width) : w.bytes ≤ 8 := by cases w <;> decide

theorem Width.bits_le (w : Width) : w.bits ≤ 64 := by cases w <;> decide

namespace Machine

/-- Every command is the decode or the encode command of its width (R57). -/
theorem instr_cases (i : Instr) : (∃ w, i = .decodeOf w) ∨ ∃ w, i = .encodeOf w := by
  cases i
  · exact .inl ⟨.w8, rfl⟩
  · exact .inl ⟨.w16, rfl⟩
  · exact .inl ⟨.w32, rfl⟩
  · exact .inl ⟨.w64, rfl⟩
  · exact .inr ⟨.w8, rfl⟩
  · exact .inr ⟨.w16, rfl⟩
  · exact .inr ⟨.w32, rfl⟩
  · exact .inr ⟨.w64, rfl⟩

theorem exec_decodeOf (w : Width) (s : State) : exec (.decodeOf w) s = runDecode w s := by cases w <;> rfl

theorem exec_encodeOf (w : Width) (s : State) : exec (.encodeOf w) s = runEncode w s := by cases w <;> rfl

/-- The loop of R85 is a fold of `acc_step` over the bytes it reads. -/
theorem accumulateFrom_eq (buf : Memory) (addr n : Nat) (acc : Word) :
    accumulateFrom buf addr n acc = (buf.readRange addr n).foldl accStep acc := by
  induction n generalizing addr acc with
  | zero => rfl
  | succ n ih => simp only [accumulateFrom, Memory.readRange, List.foldl_cons, ih]

/-- The window of R85 lies inside the sequence. -/
theorem State.retainedBase_add (s : State) (w : Width) : s.retainedBase w + s.retainedCount w = s.len.toNat := by
  simp only [State.retainedBase, State.retainedCount]
  omega

/-- The one outcome of a decode command, by fields. -/
theorem runDecode_next {w : Width} {s t : State} (h : runDecode w s = .next t) :
    t.acc = accumulateFrom s.buf (s.retainedBase w) (s.retainedCount w) 0#64 ∧ t.val = zext64 (narrow w t.acc) ∧
      t.buf = s.buf ∧ t.len = s.len ∧ t.wrk = s.wrk ∧ t.inputs = s.inputs ∧ t.readings = s.readings := by
  cases h
  exact ⟨rfl, rfl, rfl, rfl, rfl, rfl, rfl⟩

/-- The loop of R95 shifts `WRK` right once an iteration. -/
theorem encodeInto_wrk (k : Nat) (wrk : Word) (buf : Memory) : (encodeInto k wrk buf).1 = wrk >>> (8 * k) := by
  induction k generalizing wrk buf with
  | zero => simp [encodeInto]
  | succ k ih =>
    rw [encodeInto, ih, ← BitVec.shiftRight_add]
    congr 1
    omega

theorem encodeInto_wf {buf : Memory} (h : buf.wf) (k : Nat) (wrk : Word) : (encodeInto k wrk buf).2.wf := by
  induction k generalizing wrk buf with
  | zero => exact h
  | succ k ih => exact ih (Memory.write_wf h k _) _

theorem encodeInto_below {buf : Memory} {n : Nat} (h : buf.below n) (k : Nat) (hk : k ≤ n) (wrk : Word) :
    (encodeInto k wrk buf).2.below n := by
  induction k generalizing wrk buf with
  | zero => exact h
  | succ k ih => exact ih (Memory.write_below h (by omega) _) (by omega) _

/-- The loop of R95 writes no address at or above K, in any buffer. -/
theorem encodeInto_read_above (k : Nat) (wrk : Word) (buf : Memory) {a : Nat} (h : k ≤ a) :
    (encodeInto k wrk buf).2.read a = buf.read a := by
  induction k generalizing wrk buf with
  | zero => rfl
  | succ k ih => rw [encodeInto, ih _ _ (by omega), Memory.read_write_other _ _ (by omega)]

/-- The byte that the loop of R95 leaves at an address below K, in a canonical buffer. -/
theorem encodeInto_read_below {buf : Memory} (hb : buf.wf) (k : Nat) (wrk : Word) {a : Nat} (h : a < k) :
    (encodeInto k wrk buf).2.read a = lowByte (wrk >>> (8 * (k - 1 - a))) := by
  induction k generalizing wrk buf with
  | zero => omega
  | succ k ih =>
    rw [encodeInto]
    by_cases hk : a = k
    · subst hk
      rw [encodeInto_read_above _ _ _ (Nat.le_refl a), Memory.read_write_same hb]
      simp
    · rw [ih (Memory.write_wf hb k _) _ (by omega), ← BitVec.shiftRight_add]
      congr 2
      omega

/-- The one outcome of an encode command, by fields. -/
theorem runEncode_next {w : Width} {s t : State} (h : runEncode w s = .next t) :
    t.wrk = zext64 (s.valAt w) >>> (8 * w.bytes) ∧
      t.buf = (encodeInto w.bytes (zext64 (s.valAt w)) s.buf).2 ∧ t.len = BitVec.ofNat 8 w.bytes ∧
      t.val = s.val ∧ t.acc = s.acc ∧ t.inputs = s.inputs ∧ t.readings = s.readings := by
  cases h
  exact ⟨encodeInto_wrk _ _ _, rfl, rfl, rfl, rfl, rfl, rfl⟩

/-- The loop of R74 puts the bytes of the working copy in front of what it has. -/
theorem encodeFrom_eq (k : Nat) (wrk : Word) (res : ByteSequence) :
    encodeFrom k wrk res = encodeFrom k wrk [] ++ res := by
  induction k generalizing wrk res with
  | zero => rfl
  | succ k ih =>
    rw [encodeFrom, encodeFrom, ih _ (lowByte wrk :: res), ih _ [lowByte wrk]]
    simp

@[simp] theorem encodeFrom_length (k : Nat) (wrk : Word) (res : ByteSequence) :
    (encodeFrom k wrk res).length = k + res.length := by
  induction k generalizing wrk res with
  | zero => simp [encodeFrom]
  | succ k ih =>
    rw [encodeFrom, ih]
    simp only [List.length_cons]
    omega

end Machine

end Sys2Proof
end

