-- ==== Sys2Proof/Laws/HostAccess.lean ====
section
/-!
SUPPORT. What the host's actions and the step can do, said once.
-/

namespace Sys2Proof.Machine

/-- A write to `CMD` is a decode command, an encode command, or nothing (R111). -/
theorem performCmd_cases (c : BitVec 8) (s : State) :
    (∃ w, performCmd c s = runDecode w s) ∨ (∃ w, performCmd c s = runEncode w s) ∨ performCmd c s = .next s := by
  unfold performCmd
  cases decodeCmd c with
  | reserved => exact .inr (.inr rfl)
  | command i =>
    rcases instr_cases i with ⟨w, rfl⟩ | ⟨w, rfl⟩
    · exact .inl ⟨w, exec_decodeOf w s⟩
    · exact .inr (.inl ⟨w, exec_encodeOf w s⟩)

/-- A step with an input waiting takes exactly that input. -/
theorem hostStep_cons {m : MaxLen} {s : State} {i : Input} {rest : List Input} (h : s.inputs = i :: rest) :
    hostStep m s = absorb m i (s.setInputs rest) := by
  simp only [hostStep, h]

/-- A step with no input waiting changes nothing. -/
theorem hostStep_nil {m : MaxLen} {s : State} (h : s.inputs = []) : hostStep m s = .next s := by
  simp only [hostStep, h]

theorem step_def (s : State) : step s = hostStep Config.maxLen s := rfl

/-- One more step of a run of the machine. -/
theorem core_run_succ {s t : State} (h : step s = .next t) (k : Nat) :
    Host.Core.run core (k + 1) s = Host.Core.run core k t := by
  have hc : core.step s = .next t := h
  simp only [Host.Core.run, hc]

/-- What a write to `CMD` does to a state does not depend on the inputs still waiting. -/
theorem performCmd_setInputs {c : BitVec 8} {s t : State} (h : performCmd c s = .next t) (r : List Input) :
    performCmd c (s.setInputs r) = .next (t.setInputs r) := by
  unfold performCmd at h ⊢
  cases hc : decodeCmd c with
  | reserved =>
    simp only [hc] at h ⊢
    cases h
    rfl
  | command i =>
    simp only [hc] at h ⊢
    rcases instr_cases i with ⟨w, rfl⟩ | ⟨w, rfl⟩
    · rw [exec_decodeOf] at h ⊢
      cases h
      rfl
    · rw [exec_encodeOf] at h ⊢
      cases h
      rfl

/-- What a host action does to a state does not depend on the inputs still waiting. -/
theorem perform_setInputs {m : MaxLen} {a : HostAction} {s t : State} (h : perform m a s = .next t)
    (r : List Input) : perform m a (s.setInputs r) = .next (t.setInputs r) := by
  cases a with
  | cmd c => exact performCmd_setInputs h r
  | wrbuf a b =>
    cases h
    simp only [perform, performWrbuf]
    split <;> rfl
  | wrval v => cases h; rfl
  | rdval => cases h; rfl
  | wrlen n => cases h; rfl
  | rdlen => cases h; rfl
  | rdbuf a => cases h; rfl
  | rdcmd => cases h; rfl

/-- The value `WRLEN` stores, as a number: it fits the 8 bits of `LEN`. -/
theorem clampLen_toNat (m : MaxLen) (n : BitVec 8) : (clampLen m.val n).toNat = min n.toNat m.val := by
  have := m.upper
  simp only [clampLen, BitVec.toNat_ofNat]
  omega

/-- Clamping is idempotent (R107). -/
theorem clampLen_clampLen (m : MaxLen) (n : BitVec 8) : clampLen m.val (clampLen m.val n) = clampLen m.val n := by
  apply BitVec.eq_of_toNat_eq
  simp only [clampLen_toNat]
  omega

/-- One run after another (R115). -/
theorem runActions_append {m : MaxLen} {p q : List HostAction} {s t : State}
    (h : runActions m p s = .next t) : runActions m (p ++ q) s = runActions m q t := by
  induction p generalizing s with
  | nil =>
    cases h
    rfl
  | cons a p ih =>
    simp only [runActions, List.cons_append] at h ⊢
    cases ha : perform m a s with
    | next u =>
      rw [ha] at h
      exact ih h
    | fault f => rw [ha] at h; cases h
    | refused r => rw [ha] at h; cases h

end Sys2Proof.Machine
end

