-- ==== Sys2Proof/Laws/PerInstr.lean ====
section
/-!
SUPPORT. Families of statements made for each instruction. `DefinedWord`: the command's word has its reserved
bits zero (`30_encoding.md` R50, R54).
-/

namespace Sys2Proof.Laws.DefinedWord

/-- The word of a command is a defined one. -/
def Statement (i : Instr) : Prop := definedWord (encodeCmd i) = true

theorem dec8 : Statement .dec8 := rfl

theorem dec16 : Statement .dec16 := rfl

theorem dec32 : Statement .dec32 := rfl

theorem dec64 : Statement .dec64 := rfl

theorem enc8 : Statement .enc8 := rfl

theorem enc16 : Statement .enc16 := rfl

theorem enc32 : Statement .enc32 := rfl

theorem enc64 : Statement .enc64 := rfl

end Sys2Proof.Laws.DefinedWord
end

