-- ==== Sys2Proof/Machine/Flags.lean ====
section
/-!
DEFINITION. The flags: none. `10_state.md` R19: the block has no flag, condition code, predicate, status bit or
busy bit, and no command records overflow, truncation, short input or long input anywhere. So no flag
computation exists to be defined here.
-/
end

