-- ==== Sys2Proof/Tests/Slice0.lean ====
section
/-!
SUPPORT. The model's own tests. Words, vectors and values are the spec's (`30_encoding.md` R53, `95_test_vectors.md`
and the examples inside the rules), never the model's own answers. The theorems named `witness_…` show that the
hypotheses of the statements can be met together.
-/

namespace Sys2Proof.Tests

open Sys2Proof Sys2Proof.Machine

/-- The next state, if there is one. -/
def after (o : Host.Outcome State Fault Refusal) : Option State :=
  match o with
  | .next s => some s
  | .fault _ => none
  | .refused _ => none

/-- A state that holds a sequence and a value, every other field as after reset. -/
def holding (s : ByteSequence) (v : Word) : State :=
  { State.reset with buf := Memory.writeRange [] 0 s, len := BitVec.ofNat 8 s.length, val := v }

/-- MAXLEN = 16, as in `95_test_vectors.md` section 2.4. -/
def sixteen : MaxLen := ⟨16, by decide, by decide⟩

/-- The least MAXLEN. -/
def eight : MaxLen := ⟨8, by decide, by decide⟩

/-- The greatest MAXLEN. -/
def most : MaxLen := ⟨255, by decide, by decide⟩

/-! ## Words, by R50 and R53: reserved bits, `o`, `ww` -/

theorem test_word_dec8 : decodeCmd 0b00000000#8 = .command .dec8 := by decide
theorem test_word_dec16 : decodeCmd 0b00000001#8 = .command .dec16 := by decide
theorem test_word_dec32 : decodeCmd 0b00000010#8 = .command .dec32 := by decide
theorem test_word_dec64 : decodeCmd 0b00000011#8 = .command .dec64 := by decide
theorem test_word_enc8 : decodeCmd 0b00000100#8 = .command .enc8 := by decide
theorem test_word_enc16 : decodeCmd 0b00000101#8 = .command .enc16 := by decide
theorem test_word_enc32 : decodeCmd 0b00000110#8 = .command .enc32 := by decide
theorem test_word_enc64 : decodeCmd 0b00000111#8 = .command .enc64 := by decide

/-- `95_test_vectors.md` 2.5: the reserved rows. -/
theorem test_words_reserved :
    decodeCmd 0x08#8 = .reserved ∧ decodeCmd 0x0D#8 = .reserved ∧ decodeCmd 0x85#8 = .reserved ∧
      decodeCmd 0xFF#8 = .reserved := by decide

theorem test_table_word : decodeTableWord 8 5 = some .enc16 ∧ decodeTableWord 8 8 = none := by decide

/-- The step after `withFetchWord` runs the word; `ENC32` straight after reset writes four zero bytes (R158). -/
theorem test_placed_word : (after (step (State.reset.withFetchWord 8 6))).map State.seq =
    some [0x00#8, 0x00#8, 0x00#8, 0x00#8] := by decide

/-! ## Well-formedness: one ill-formed term for each check -/

theorem test_wf_word : definedWord 0x07#8 = true ∧ definedWord 0x08#8 = false := by decide

theorem test_wf_address : (ActionCode.mk .val (some 0) none).wf = false ∧
    (ActionCode.mk .buf none none).wf = false ∧ (ActionCode.mk .buf (some 256) none).wf = false ∧
    (ActionCode.mk .buf (some 255) none).wf = true := by decide

theorem test_wf_data : (ActionCode.mk .len none (some 256)).wf = false ∧
    (ActionCode.mk .val none (some (2 ^ 64))).wf = false ∧
    (ActionCode.mk .val none (some (2 ^ 64 - 1))).wf = true := by decide

theorem test_wf_putseq : (Statement.putSeq (zeros 9)).wf eight = false ∧
    (Statement.putSeq (zeros 8)).wf eight = true := by decide

/-! ## The datapath (`95_test_vectors.md` 2.1) -/

theorem test_retained_long : retained [0xDE#8, 0xAD#8, 0xBE#8, 0xEF#8, 0x01#8] .w32 =
    [0xAD#8, 0xBE#8, 0xEF#8, 0x01#8] := by decide

/-- The ninth byte shifts the first out. -/
theorem test_acc_step_loses_top : accStep 0x0123456789ABCDEF#64 0x11#8 = 0x23456789ABCDEF11#64 := by decide

theorem test_acc64_nine_bytes :
    acc64 [0x11#8, 0x22#8, 0x33#8, 0x44#8, 0x55#8, 0x66#8, 0x77#8, 0x88#8, 0x99#8] = 0x2233445566778899#64 := by
  decide

theorem test_narrow : (narrow .w32 0x0123456789ABCDEF#64).toNat = 0x89ABCDEF := by decide

theorem test_low_byte : lowByte 0x000000000000ABCD#64 = 0xCD#8 := by decide

theorem test_encode_source_example : encode .w16 0xABCD#16 = [0xAB#8, 0xCD#8] := by decide

/-! ## The decode commands (`95_test_vectors.md` 2.2 and section 1) -/

/-- R86's example; the old `VAL` is all ones. -/
theorem test_dec8 : (after (exec .dec8 (holding [0xFF#8, 0xAB#8, 0xCD#8] 0xFFFFFFFFFFFFFFFF#64))).map State.val =
    some 0x00000000000000CD#64 := by decide

theorem test_dec8_empty : (after (exec .dec8 (holding [] 0x55#64))).map State.val = some 0#64 := by decide

/-- S3. -/
theorem test_dec16_long : (after (exec .dec16 (holding [0xFF#8, 0xAB#8, 0xCD#8] 0#64))).map State.val =
    some 0x000000000000ABCD#64 := by decide

/-- S2. -/
theorem test_dec16_short : (after (exec .dec16 (holding [0x0F#8] 0#64))).map State.val =
    some 0x000000000000000F#64 := by decide

/-- R88's example. -/
theorem test_dec32 : (after (exec .dec32 (holding [0xDE#8, 0xAD#8, 0xBE#8, 0xEF#8, 0x01#8] 0#64))).map State.val =
    some 0x00000000ADBEEF01#64 := by decide

/-- R90 (a): bytes at or beyond `LEN` are not read. -/
theorem test_dec32_beyond_len :
    (after (exec .dec32 ((holding [0xAA#8, 0xBB#8, 0xCC#8, 0xDD#8] 0#64).setLen 2#8))).map State.val =
      some 0x000000000000AABB#64 := by decide

/-- R89's example. -/
theorem test_dec64 : (after (exec .dec64 (holding
    [0x01#8, 0x23#8, 0x45#8, 0x67#8, 0x89#8, 0xAB#8, 0xCD#8, 0xEF#8] 0#64))).map State.val =
      some 0x0123456789ABCDEF#64 := by decide

/-- The 12-byte row: `VAL`, and `ACC` as its trace leaves it. -/
theorem test_dec64_twelve : (after (exec .dec64 (holding
    [0x01#8, 0x23#8, 0x45#8, 0x67#8, 0x89#8, 0xAB#8, 0xCD#8, 0xEF#8, 0xFE#8, 0xDC#8, 0xBA#8, 0x98#8] 0#64))).map
      (fun t => (t.val, t.acc)) = some (0x89ABCDEFFEDCBA98#64, 0x89ABCDEFFEDCBA98#64) := by decide

/-! ## The encode commands (`95_test_vectors.md` 2.3) -/

/-- R96's ignored bits: VAL = 0xABCD writes [0xCD]. -/
theorem test_enc8 : (after (exec .enc8 (holding [] 0xABCD#64))).map State.seq = some [0xCD#8] := by decide

/-- S1. -/
theorem test_enc16 : (after (exec .enc16 (holding [] 0xABCD#64))).map State.seq = some [0xAB#8, 0xCD#8] := by decide

/-- The stale tail: LEN = 2 and bytes 2 .. 5 as they were. -/
theorem test_enc16_stale_tail :
    (after (exec .enc16 (holding [0x01#8, 0x02#8, 0x03#8, 0x04#8, 0x05#8, 0x06#8] 0xABCD#64))).map
      (fun t => (t.len, t.buf.readRange 0 6)) =
      some (2#8, [0xAB#8, 0xCD#8, 0x03#8, 0x04#8, 0x05#8, 0x06#8]) := by decide

/-- Leading zeros are kept (R98). -/
theorem test_enc32 : (after (exec .enc32 (holding [] 0x2A#64))).map State.seq =
    some [0x00#8, 0x00#8, 0x00#8, 0x2A#8] := by decide

/-- R98's example, `VAL` kept and `WRK` empty. -/
theorem test_enc32_registers : (after (exec .enc32 (holding [] 0x0000000012345678#64))).map
    (fun t => (t.seq, t.val, t.wrk)) =
      some ([0x12#8, 0x34#8, 0x56#8, 0x78#8], 0x0000000012345678#64, 0#64) := by decide

/-- R99's example. -/
theorem test_enc64 : (after (exec .enc64 (holding [] 0x0123456789ABCDEF#64))).map State.seq =
    some [0x01#8, 0x23#8, 0x45#8, 0x67#8, 0x89#8, 0xAB#8, 0xCD#8, 0xEF#8] := by decide

/-! ## The host actions (`95_test_vectors.md` 2.4), MAXLEN = 16 -/

theorem test_wrlen_clamps : (after (perform sixteen (.wrlen 200#8) State.reset)).map State.len = some 16#8 ∧
    (after (perform sixteen (.wrlen 16#8) State.reset)).map State.len = some 16#8 := by decide

theorem test_wrbuf_edge : (after (perform sixteen (.wrbuf 15#8 0x5A#8) State.reset)).map State.buf =
    some [(15, 0x5A#8)] ∧
    (after (perform sixteen (.wrbuf 16#8 0x77#8) State.reset)).map State.buf = some [] := by decide

theorem test_rdbuf_unmapped : (after (perform sixteen (.rdbuf 200#8) State.reset)).map State.readings =
    some [.buf 0x00#8] := by decide

theorem test_rdcmd : (after (perform sixteen .rdcmd State.reset)).map State.readings = some [.cmd 0x00#8] := by
  decide

theorem test_reserved_word : after (perform sixteen (.cmd 0x08#8) (holding [0x0F#8] 0x1234#64)) =
    some (holding [0x0F#8] 0x1234#64) := by decide

/-- `95_test_vectors.md` 2.6: reset after a history. -/
theorem test_reset : (after (hostStep sixteen { holding [0x01#8, 0x02#8] 0xDEADBEEF#64 with inputs := [.reset] })) =
    some State.reset := by decide

/-! ## Assembler lines (R59, R60) -/

/-- A byte write with a comment, and a read whose value is named. -/
theorem test_lines :
    assembleLine sixteen ['W', 'R', 'B', 'U', 'F', ' ', '0', ',', ' ', '0', 'x', 'F', 'F', ' ', '#', 'x'] =
      some (some ⟨.action (.wrbuf 0#8 0xFF#8), none⟩) ∧
    assembleLine sixteen ['R', 'D', 'V', 'A', 'L', ' ', '-', '>', ' ', 'x'] =
      some (some ⟨.action .rdval, some ['x']⟩) ∧
    assembleLine sixteen ['P', 'U', 'T', 'S', 'E', 'Q', ' ', '[', '1', ',', '0', 'x', '0', '2', ']'] =
      some (some ⟨.putSeq [0x01#8, 0x02#8], none⟩) := by decide

/-- A value out of the operand's range, and an unknown mnemonic. -/
theorem test_lines_rejected :
    assembleLine sixteen ['W', 'R', 'L', 'E', 'N', ' ', '2', '5', '6'] = none ∧
    assembleLine sixteen ['N', 'O', 'P'] = none := by decide

/-! ## Witnesses: the hypotheses of each statement, met together -/

theorem witness_CommandCodingIsABijection : (0x07#8 : BitVec 8).toNat < 8 ∧
    (0x08#8 : BitVec 8).extractLsb' 3 5 ≠ 0#5 ∧ (0x05#8 : BitVec 8).extractLsb' 3 5 = 0#5 ∧
    Width.w16.bits = 8 <<< ((0x05#8 : BitVec 8).extractLsb' 0 2).toNat ∧
    (0x01#8 : BitVec 8).extractLsb' 2 1 = 0#1 ∧ (0x05#8 : BitVec 8).extractLsb' 2 1 ≠ 0#1 := by decide

theorem witness_ReservedWordsAreNoOperations : 0x08 ≤ (0x08#8 : BitVec 8).toNat := by decide

theorem witness_ActionCodesRoundTrip : (ActionCode.mk .buf (some 255) (some 255)).wf = true ∧
    (ActionCode.mk .buf (some 256) (some 0)).wf = false := by decide

theorem witness_StepRunsTheDecodedCommand :
    (∃ s : State, s.inputs = .action (.cmd 0x05#8) :: [] ∧ decodeCmd 0x05#8 = .command .enc16) ∧
    ∃ s : State, s.inputs = .action (.cmd 0x08#8) :: [] ∧ decodeCmd 0x08#8 = .reserved :=
  ⟨⟨{ State.reset with inputs := [.action (.cmd 0x05#8)] }, rfl, by decide⟩,
    { State.reset with inputs := [.action (.cmd 0x08#8)] }, rfl, by decide⟩

theorem witness_PlacedWordRunsNext : decodeTableWord 8 7 = some .enc64 := by decide

theorem witness_StepPerformsTheNextAction :
    (∃ s : State, s.inputs = .action .rdval :: []) ∧ State.reset.inputs = [] :=
  ⟨⟨{ State.reset with inputs := [.action .rdval] }, rfl⟩, rfl⟩

theorem witness_ResetClearsTheBlock : ∃ s : State, s.inputs = .reset :: [] :=
  ⟨{ State.reset with inputs := [.reset] }, rfl⟩

theorem witness_QueuedActionsRunAsTheProgram : (holding [0x0F#8] 0x1234#64).inputs = [] := by decide

theorem witness_LengthNeverExceedsMaxlen :
    (∃ s t : State, s.len.toNat ≤ eight.val ∧ hostStep eight s = .next t ∧ s ≠ t) ∧
      ∃ s t : State, exec (.decodeOf .w64) s = .next t :=
  ⟨⟨{ State.reset with inputs := [.action (.wrlen 9#8)], len := 8#8 }, _, by decide, rfl, by decide⟩, State.reset, _, rfl⟩

theorem witness_StepKeepsStatesLegal :
    (∃ s t : State, s.Legal Config.maxLen ∧ step s = .next t) ∧
      ∃ s t : State, s.Legal eight ∧ hostStep eight s = .next t ∧ s.len.toNat = eight.val :=
  ⟨⟨State.reset, _, ⟨Nat.zero_le _, by decide, fun _ h => absurd h List.not_mem_nil⟩, rfl⟩,
    { State.reset with inputs := [.action (.wrbuf 7#8 1#8)], len := 8#8 }, _, by decide, rfl, rfl⟩

theorem witness_StepKeepsTheWorkingCopyEmpty :
    ∃ s t : State, s.wrk = 0#64 ∧ s.inputs ≠ [] ∧ step s = .next t :=
  ⟨{ State.reset with val := 0xABCD#64, inputs := [.action (.cmd 0x05#8)] }, _, rfl, by decide, rfl⟩

theorem witness_OnlyTheseActionsWrite :
    (∃ t, perform sixteen (.wrval 1#64) State.reset = .next t ∧ t.val ≠ State.reset.val) ∧
    (∃ t, perform sixteen (.cmd 0x06#8) State.reset = .next t ∧ t.len ≠ State.reset.len) ∧
    (∃ t, perform sixteen (.cmd 0x00#8) (holding [1#8] 0#64) = .next t ∧ t.acc ≠ (holding [1#8] 0#64).acc) ∧
    (∃ t, perform sixteen (.cmd 0x04#8) (State.reset.setWrk 1#64) = .next t ∧ t.wrk ≠ (State.reset.setWrk 1#64).wrk) ∧
    ∃ t, perform sixteen (.wrbuf 15#8 1#8) State.reset = .next t ∧ t.buf.read 15 ≠ State.reset.buf.read 15 :=
  ⟨⟨_, rfl, by decide⟩, ⟨_, rfl, by decide⟩, ⟨_, rfl, by decide⟩, ⟨_, rfl, by decide⟩, _, rfl, by decide⟩

theorem witness_WorkingRegistersCannotBeObserved :
    (State.reset.setAcc 5#64).SameVisible (State.reset.setWrk 7#64) ∧
      (State.reset.setAcc 5#64) ≠ (State.reset.setWrk 7#64) ∧
      (∃ t, exec (.decodeOf .w8) State.reset = .next t) ∧ ∃ t, exec (.encodeOf .w8) State.reset = .next t :=
  ⟨by decide, by decide, ⟨_, rfl⟩, _, rfl⟩

theorem witness_ActionsAreIdempotent : (HostAction.rdbuf 255#8).reads = true ∧
    ∃ t, State.reset.buf.wf ∧ perform sixteen (.wrlen 255#8) State.reset = .next t :=
  ⟨rfl, _, by decide, rfl⟩

theorem witness_AccumulationClosedForm : (zeros 8).length ≤ 8 ∧ 8 < (zeros 9).length := by decide

theorem witness_DecodeIsTheRetainedNumber : Width.w16.bytes ≤ [0xFF#8, 0xAB#8, 0xCD#8].length ∧
    Width.w16.bytes ≤ [0xAB#8, 0xCD#8].length ∧
    suffix [0xFF#8, 0xAB#8, 0xCD#8] Width.w16.bytes = suffix [0xAB#8, 0xCD#8] Width.w16.bytes := by decide

theorem witness_ShortInputIsZeroExtended : [0x0F#8].length < Width.w16.bytes := by decide

theorem witness_EncodeClosedForm : 7 < Width.w64.bytes := by decide

theorem witness_DecodeOfEncodeRoundTrip :
    (holding [1#8, 2#8] 0#64).buf.wf ∧ (0xFFFF#64 : Word).toNat < 2 ^ Width.w16.bits := by decide

theorem witness_EncodeDecodeEncodeIsEncode : (holding [1#8, 2#8] 0#64).buf.wf ∧ 0 < Width.w8.bytes := by decide

theorem witness_EncodeOfDecodeCutsOrPads : (holding [1#8, 0#8, 2#8] 0#64).buf.wf := by decide

theorem witness_EncodeIsABijection : [0xAB#8, 0xCD#8].length = Width.w16.bytes := by decide

theorem witness_LeadingBytesDoNotMatter : Width.w16.bytes ≤ [0xAB#8, 0xCD#8].length := by decide

theorem witness_WidthsAgreeOnLowBytes : Width.w8.bits < Width.w64.bits ∧ (holding [1#8] 0#64).buf.wf := by decide

theorem witness_WidthChangesThroughTheBuffer :
    Width.w16.bits < Width.w32.bits ∧ (holding [1#8] 0xCAFEF00DDEADBEEF#64).buf.wf := by decide

theorem witness_DecodeAndEncodeBounds : 0xCD#8 ∈ encode .w16 0xABCD#16 ∧
    (0x00FF#16 : BitVec 16).toNat < 2 ^ (Width.w16.bits - 8) ∧
    (0#8 : BitVec 8).toNat < 2 ^ (Width.w8.bits - 8) := by decide

theorem witness_Dec8LoadsTheLastByte : (holding [] 0#64).len.toNat = 0 ∧ 1 ≤ (holding [7#8] 0#64).len.toNat ∧
    ∃ t, exec .dec8 (holding [7#8] 0#64) = .next t :=
  ⟨by decide, by decide, _, rfl⟩

theorem witness_Dec16LoadsTheLastTwoBytes : (holding [] 0#64).len.toNat = 0 ∧ (holding [7#8] 0#64).len.toNat = 1 ∧
    2 ≤ (holding [7#8, 8#8] 0#64).len.toNat ∧ ∃ t, exec .dec16 (holding [7#8] 0#64) = .next t :=
  ⟨by decide, by decide, by decide, _, rfl⟩

theorem witness_Dec32LoadsTheLastFourBytes :
    4 = min (holding [1#8, 2#8, 3#8, 4#8, 5#8] 0#64).len.toNat 4 ∧
    0x02030405 = ∑ i ∈ Finset.range 4, ((holding [1#8, 2#8, 3#8, 4#8, 5#8] 0#64).buf.read
      ((holding [1#8, 2#8, 3#8, 4#8, 5#8] 0#64).len.toNat - 4 + i)).toNat * 256 ^ (4 - 1 - i) ∧
    (holding [] 0#64).len.toNat = 0 := by decide

theorem witness_Dec64LoadsTheLastEightBytes :
    2 = min (holding [1#8, 2#8] 0#64).len.toNat 8 ∧
    0x0102 = ∑ i ∈ Finset.range 2, ((holding [1#8, 2#8] 0#64).buf.read
      ((holding [1#8, 2#8] 0#64).len.toNat - 2 + i)).toNat * 256 ^ (2 - 1 - i) ∧
    (holding [] 0#64).len.toNat = 0 := by decide

/-- The two states differ at address 0, which the last two bytes of three leave out, and at 3, beyond `LEN`. -/
theorem witness_DecodeCornerCases :
    (holding [1#8, 2#8, 3#8, 4#8] 0#64).setLen 3#8 ≠ (holding [9#8, 2#8, 3#8, 5#8] 0#64).setLen 3#8 ∧
    ∀ a, 3 - Width.w16.bytes ≤ a → a < 3 →
      ((holding [1#8, 2#8, 3#8, 4#8] 0#64).setLen 3#8).buf.read a =
        ((holding [9#8, 2#8, 3#8, 5#8] 0#64).setLen 3#8).buf.read a := by
  refine ⟨by decide, fun a h₁ h₂ => ?_⟩
  have h : a = 1 ∨ a = 2 := by
    have : 3 - Width.w16.bytes = 1 := rfl
    omega
  rcases h with rfl | rfl <;> decide

theorem witness_DecodeCommandsFrame : Instr.dec64 ∈ [Instr.dec8, .dec16, .dec32, .dec64] ∧
    ∃ t, exec .dec64 (holding [1#8] 2#64) = .next t :=
  ⟨by decide, _, rfl⟩

theorem witness_EncodeCommandsEncodeTheValue : (holding [1#8, 0#8, 2#8] 0xABCD#64).buf.wf ∧
    Width.w64.bytes ≤ 8 := by decide

theorem witness_Enc8WritesOneByte : (holding [1#8, 2#8] 3#64).buf.wf ∧ 1 ≤ 1 ∧
    ∃ t, exec .enc8 (holding [1#8, 2#8] 3#64) = .next t :=
  ⟨by decide, by decide, _, rfl⟩

theorem witness_Enc16WritesTwoBytes : (holding [1#8, 2#8, 3#8] 3#64).buf.wf ∧ 2 ≤ 2 ∧
    ∃ t, exec .enc16 (holding [1#8, 2#8, 3#8] 3#64) = .next t :=
  ⟨by decide, by decide, _, rfl⟩

theorem witness_Enc32WritesFourBytes : (holding [1#8, 2#8] 3#64).buf.wf ∧ 4 ≤ 4 ∧
    ∃ t, exec .enc32 (holding [1#8, 2#8] 3#64) = .next t :=
  ⟨by decide, by decide, _, rfl⟩

theorem witness_Enc64WritesEightBytes : (holding [1#8, 2#8] 3#64).buf.wf ∧ 8 ≤ 8 ∧
    ∃ t, exec .enc64 (holding [1#8, 2#8] 3#64) = .next t :=
  ⟨by decide, by decide, _, rfl⟩

theorem witness_EncodeCornerCases : (holding [1#8, 0#8, 2#8] 0xABCD#64).buf.wf ∧ 1 < Width.w16.bytes ∧
    Width.w16.bytes ≤ 2 := by decide

theorem witness_EncodeCommandsFrame : Instr.enc32 ∈ [Instr.enc8, .enc16, .enc32, .enc64] ∧
    0 + Instr.enc32.width.bytes ≤ 4 ∧ ∃ t, exec .enc32 (holding [1#8] 2#64) = .next t :=
  ⟨by decide, by decide, _, rfl⟩

theorem witness_WrvalWritesTheWholeRegister : (holding [1#8] 0#64).buf.wf := by decide

theorem witness_WrlenStoresTheClampedLength : (16#8 : BitVec 8).toNat ≤ sixteen.val ∧
    sixteen.val < (17#8 : BitVec 8).toNat ∧ most.val = 255 ∧
    ∃ t, perform sixteen (.wrlen 17#8) State.reset = .next t :=
  ⟨by decide, by decide, rfl, _, rfl⟩

theorem witness_RdlenYieldsTheLength : ((holding (zeros 8) 0#64).setLen 8#8).Legal eight := by decide

theorem witness_WrbufWritesOneByte : sixteen.val ≤ (16#8 : BitVec 8).toNat ∧ (15#8 : BitVec 8).toNat < sixteen.val ∧
    (holding [1#8] 0#64).buf.wf ∧ (∃ t, perform sixteen (.wrbuf 15#8 1#8) (holding [1#8] 0#64) = .next t) ∧
    14 ≠ (15#8 : BitVec 8).toNat :=
  ⟨by decide, by decide, by decide, ⟨_, rfl⟩, by decide⟩

theorem witness_RdbufYieldsOneByte : (15#8 : BitVec 8).toNat < sixteen.val ∧
    sixteen.val ≤ (16#8 : BitVec 8).toNat := by decide

theorem witness_ReadsSeeTheLatestWrite : (15#8 : BitVec 8).toNat < sixteen.val ∧ State.reset.buf.wf ∧
    ∀ x ∈ [HostAction.wrbuf 14#8 2#8, .rdval, .wrlen 3#8], (∀ c, x ≠ .cmd c) ∧ ∀ b', x ≠ .wrbuf 15#8 b' := by
  refine ⟨by decide, by decide, ?_⟩
  simp

theorem witness_CommandPortStoresNothing : 0x08 ≤ (0x08#8 : BitVec 8).toNat ∧ (0xFF#8 : BitVec 8).toNat ≤ 0xFF := by
  decide

theorem witness_PutseqAndGetseqMoveTheSequence : (Statement.putSeq (zeros 16)).wf sixteen = true ∧
    (holding [1#8] 0#64).buf.wf ∧ (holding [1#8, 2#8] 0#64).Legal sixteen := by decide

theorem witness_HostGetsDecodeAndEncode : (zeros 16).length ≤ sixteen.val ∧ (holding [1#8] 0#64).buf.wf := by decide

end Sys2Proof.Tests
end

section
/-!
SUPPORT. Facts about the operands and about what an input can do to the registers, for the statements of
`10_state.md`.
-/

namespace Sys2Proof.Machine

/-! ## Operands -/

/-- Zero-extension keeps the number (R7): a value of width W fits the 64-bit word. -/
theorem zext64_toNat {w : Width} (v : BitVec w.bits) : (zext64 v).toNat = v.toNat :=
  BitVec.toNat_setWidth_of_le w.bits_le

/-- The window of R85 holds the retained bytes of `seq(BUF, LEN)` (R65). -/
theorem State.readRange_retained (s : State) (w : Width) :
    s.buf.readRange (s.retainedBase w) (s.retainedCount w) = retained s.seq w := by
  have hn : s.len.toNat - (s.len.toNat - min s.len.toNat w.bytes) = min s.len.toNat w.bytes := by omega
  simp only [State.retainedBase, State.retainedCount, retained, suffix, State.seq, Memory.readRange_length,
    Memory.readRange_drop, Nat.zero_add, hn]

/-- A value of width W, shifted right by W bits, is gone (R95: K iterations empty `WRK`). -/
theorem zext64_shiftRight_bits {w : Width} (v : BitVec w.bits) : zext64 v >>> w.bits = 0#64 := by
  apply BitVec.eq_of_toNat_eq
  rw [BitVec.toNat_ushiftRight, zext64_toNat, Nat.shiftRight_eq_div_pow, Nat.div_eq_of_lt v.isLt]
  rfl

/-! ## The command port -/

/-- What a word written to `CMD` does is settled by the word alone, for every state (R111). -/
theorem performCmd_uniform (c : BitVec 8) :
    (∃ w, ∀ s, performCmd c s = runDecode w s) ∨ (∃ w, ∀ s, performCmd c s = runEncode w s) ∨
      ∀ s, performCmd c s = .next s := by
  unfold performCmd
  cases decodeCmd c with
  | reserved => exact .inr (.inr fun _ => rfl)
  | command i =>
    rcases instr_cases i with ⟨w, rfl⟩ | ⟨w, rfl⟩
    · exact .inl ⟨w, exec_decodeOf w⟩
    · exact .inr (.inl ⟨w, exec_encodeOf w⟩)

/-! ## `LEN` -/

/-- What a host action can leave in `LEN` (R23): what stood there, a clamped value (`WRLEN`), or K (`ENC`). -/
theorem perform_len_cases {m : MaxLen} {a : HostAction} {s t : State} (h : perform m a s = .next t) :
    t.len = s.len ∨ (∃ n, t.len = clampLen m.val n) ∨ ∃ w : Width, t.len = BitVec.ofNat 8 w.bytes := by
  cases a with
  | cmd c =>
    change performCmd c s = .next t at h
    rcases performCmd_cases c s with ⟨w, hw⟩ | ⟨w, hw⟩ | hw <;> rw [hw] at h
    · obtain ⟨-, -, -, hlen, -⟩ := runDecode_next h
      exact .inl hlen
    · obtain ⟨-, -, hlen, -⟩ := runEncode_next h
      exact .inr (.inr ⟨w, hlen⟩)
    · cases h
      exact .inl rfl
  | wrlen n =>
    cases h
    exact .inr (.inl ⟨n, rfl⟩)
  | wrbuf a b =>
    cases h
    left
    simp only [performWrbuf]
    split <;> rfl
  | wrval v => cases h; exact .inl rfl
  | rdval => cases h; exact .inl rfl
  | rdlen => cases h; exact .inl rfl
  | rdbuf a => cases h; exact .inl rfl
  | rdcmd => cases h; exact .inl rfl

theorem perform_len_le {m : MaxLen} {a : HostAction} {s t : State} (hs : s.len.toNat ≤ m.val)
    (h : perform m a s = .next t) : t.len.toNat ≤ m.val := by
  rcases perform_len_cases h with e | ⟨n, e⟩ | ⟨w, e⟩ <;> rw [e]
  · exact hs
  · rw [clampLen_toNat]
    exact Nat.min_le_right _ _
  · calc (BitVec.ofNat 8 w.bytes).toNat ≤ w.bytes := Nat.mod_le _ _
      _ ≤ 8 := w.bytes_le
      _ ≤ m.val := m.lower

theorem absorb_len_le {m : MaxLen} {i : Input} {s t : State} (hs : s.len.toNat ≤ m.val)
    (h : absorb m i s = .next t) : t.len.toNat ≤ m.val := by
  cases i with
  | action a => exact perform_len_le hs h
  | reset =>
    cases h
    exact Nat.zero_le _

theorem hostStep_len_le {m : MaxLen} {s t : State} (hs : s.len.toNat ≤ m.val)
    (h : hostStep m s = .next t) : t.len.toNat ≤ m.val := by
  cases hi : s.inputs with
  | nil =>
    rw [hostStep_nil hi] at h
    cases h
    exact hs
  | cons i rest =>
    rw [hostStep_cons hi] at h
    exact absorb_len_le (s := s.setInputs rest) hs h

/-! ## What the commands leave in `VAL`, `ACC` and `WRK` -/

theorem runDecode_val_lt {w : Width} {s t : State} (h : runDecode w s = .next t) :
    t.val.toNat < 2 ^ w.bits := by
  obtain ⟨-, hval, -⟩ := runDecode_next h
  rw [hval, zext64_toNat]
  exact (narrow w t.acc).isLt

/-- A decode command leaves in `ACC` the accumulation of the retained bytes (R17, R85). -/
theorem runDecode_acc {w : Width} {s t : State} (h : runDecode w s = .next t) :
    t.acc = acc64 (retained s.seq w) := by
  obtain ⟨hacc, -⟩ := runDecode_next h
  rw [hacc, accumulateFrom_eq, State.readRange_retained, acc64]

/-- An encode command leaves `WRK` empty (R17, R100 (b)). -/
theorem runEncode_wrk {w : Width} {s t : State} (h : runEncode w s = .next t) : t.wrk = 0#64 := by
  obtain ⟨hwrk, -⟩ := runEncode_next h
  rw [hwrk]
  exact zext64_shiftRight_bits (s.valAt w)

/-! ## States that agree on all but `ACC` and `WRK` -/

/-- Both outcomes go on, to states that agree on all but `ACC` and `WRK` (R17). -/
abbrev SameVisibleOutcomes (o o' : Host.Outcome State Fault Refusal) : Prop :=
  ∃ s t, o = .next s ∧ o' = .next t ∧ s.SameVisible t

theorem sameVisibleOutcomes_next {s t : State} (h : s.SameVisible t) :
    SameVisibleOutcomes (.next s) (.next t) := ⟨s, t, rfl, rfl, h⟩

/-- The visible part of a decode command's result is computed from `BUF` and `LEN`. -/
theorem runDecode_sameVisible (w : Width) {s t : State} (h : s.SameVisible t) :
    SameVisibleOutcomes (runDecode w s) (runDecode w t) := by
  obtain ⟨-, hbuf, hlen, hinputs, hreadings⟩ := h
  refine sameVisibleOutcomes_next ⟨?_, hbuf, hlen, hinputs, hreadings⟩
  simp only [State.setVal_val, State.retainedBase, State.retainedCount, hbuf, hlen]

/-- The visible part of an encode command's result is computed from `VAL` and `BUF`. -/
theorem runEncode_sameVisible (w : Width) {s t : State} (h : s.SameVisible t) :
    SameVisibleOutcomes (runEncode w s) (runEncode w t) := by
  obtain ⟨hval, hbuf, -, hinputs, hreadings⟩ := h
  refine sameVisibleOutcomes_next ⟨hval, ?_, rfl, hinputs, hreadings⟩
  simp only [State.setLen_buf, State.setBuf_buf, State.valAt, hval, hbuf]

theorem performCmd_sameVisible (c : BitVec 8) {s t : State} (h : s.SameVisible t) :
    SameVisibleOutcomes (performCmd c s) (performCmd c t) := by
  rcases performCmd_uniform c with ⟨w, hw⟩ | ⟨w, hw⟩ | hw <;> rw [hw s, hw t]
  · exact runDecode_sameVisible w h
  · exact runEncode_sameVisible w h
  · exact sameVisibleOutcomes_next h

/-- A value that both states yield keeps them alike (R37: a read changes no other state). -/
theorem yield_sameVisible {s t : State} (h : s.SameVisible t) {r r' : Reading} (hr : r = r') :
    SameVisibleOutcomes (.next (s.yield r)) (.next (t.yield r')) := by
  obtain ⟨hval, hbuf, hlen, hinputs, hreadings⟩ := h
  refine sameVisibleOutcomes_next ⟨hval, hbuf, hlen, hinputs, ?_⟩
  rw [State.yield_readings, State.yield_readings, hreadings, hr]

theorem performWrbuf_sameVisible (m : MaxLen) (a : BitVec 8) (b : Byte) {s t : State} (h : s.SameVisible t) :
    (performWrbuf m a b s).SameVisible (performWrbuf m a b t) := by
  unfold performWrbuf
  split
  · obtain ⟨hval, hbuf, hlen, hinputs, hreadings⟩ := h
    exact ⟨hval, congrArg (·.write a.toNat b) hbuf, hlen, hinputs, hreadings⟩
  · exact h

/-- No host action lets `ACC` or `WRK` reach what the host can see (R17). -/
theorem perform_sameVisible (m : MaxLen) (a : HostAction) {s t : State} (h : s.SameVisible t) :
    SameVisibleOutcomes (perform m a s) (perform m a t) := by
  have ⟨hval, hbuf, hlen, hinputs, hreadings⟩ := h
  cases a with
  | wrval v => exact sameVisibleOutcomes_next ⟨rfl, hbuf, hlen, hinputs, hreadings⟩
  | wrlen n => exact sameVisibleOutcomes_next ⟨hval, hbuf, rfl, hinputs, hreadings⟩
  | wrbuf a b => exact sameVisibleOutcomes_next (performWrbuf_sameVisible m a b h)
  | cmd c => exact performCmd_sameVisible c h
  | rdval => exact yield_sameVisible h (congrArg Reading.val hval)
  | rdlen => exact yield_sameVisible h (congrArg Reading.len hlen)
  | rdbuf a => exact yield_sameVisible h (by simp only [readBuf, hbuf])
  | rdcmd => exact yield_sameVisible h rfl

theorem absorb_sameVisible (m : MaxLen) (i : Input) {s t : State} (h : s.SameVisible t) :
    SameVisibleOutcomes (absorb m i s) (absorb m i t) := by
  cases i with
  | action a => exact perform_sameVisible m a h
  | reset =>
    obtain ⟨-, -, -, hinputs, hreadings⟩ := h
    exact sameVisibleOutcomes_next ⟨rfl, rfl, rfl, hinputs, hreadings⟩

theorem runActions_sameVisible (m : MaxLen) (p : List HostAction) {s t : State} (h : s.SameVisible t) :
    SameVisibleOutcomes (runActions m p s) (runActions m p t) := by
  induction p generalizing s t with
  | nil => exact sameVisibleOutcomes_next h
  | cons a p ih =>
    obtain ⟨s', t', hs, ht, h'⟩ := perform_sameVisible m a h
    simp only [runActions, hs, ht]
    exact ih h'

/-- What a run shows is visible (R115). -/
theorem observation_eq_of_sameVisible {s t : State} (h : s.SameVisible t) : s.observation = t.observation := by
  obtain ⟨hval, hbuf, hlen, -, hreadings⟩ := h
  simp only [State.observation, hval, hbuf, hlen, hreadings]

end Sys2Proof.Machine
end

section
/-!
SUPPORT. The statements of `10_state.md` that are settled: R21 and R17.
-/

namespace Sys2Proof.Machine

/-- Settles O14: the only values an action can put into `LEN` are clamped ones and K <= 8, and what a decode command
loads into `VAL` is a value of width W. -/
theorem lengthNeverExceedsMaxlen : Obligations.LengthNeverExceedsMaxlen := by
  refine ⟨fun m => Nat.zero_le m.val, fun m s t => hostStep_len_le, fun w s t h => ?_, fun s a => ?_⟩
  · rw [exec_decodeOf] at h
    exact Nat.le_sub_one_of_lt (runDecode_val_lt h)
  · exact ⟨Nat.le_sub_one_of_lt (s.buf.read a).isLt, Nat.le_sub_one_of_lt s.val.isLt⟩

/-- Settles O19: agreement on all but `ACC` and `WRK` is kept by every input, hence by induction by every program. -/
theorem workingRegistersCannotBeObserved : Obligations.WorkingRegistersCannotBeObserved := by
  refine ⟨fun m i s t => absorb_sameVisible m i, fun m p s t h => ?_, fun w s t h => ?_, fun w s t h => ?_⟩
  · obtain ⟨s', t', hs, ht, h'⟩ := runActions_sameVisible m p h
    exact ⟨s', t', hs, ht, observation_eq_of_sameVisible h'⟩
  · rw [exec_decodeOf] at h
    exact runDecode_acc h
  · rw [exec_encodeOf] at h
    exact runEncode_wrk h

end Sys2Proof.Machine
end

section
/-!
SUPPORT. The command word as its three fields (`30_encoding.md` R50 to R54, R57), and a line that is one mnemonic (R58).
-/

namespace Sys2Proof

/-! ## The field `ww` (R52) -/

@[simp] theorem Width.ofField_field (w : Width) : Width.ofField w.field = w := by cases w <;> rfl

@[simp] theorem Width.field_ofField (ww : BitVec 2) : (Width.ofField ww).field = ww := by
  revert ww
  decide

theorem Width.bytes_eq_two_pow (w : Width) : w.bytes = 2 ^ w.field.toNat := by cases w <;> rfl

theorem Width.bits_div_eight (w : Width) : w.bits / 8 = w.bytes := Nat.mul_div_cancel_left _ (by decide)

theorem Width.log2_bits_div_eight (w : Width) : Nat.log2 (w.bits / 8) = w.field.toNat := by
  rw [w.bits_div_eight, w.bytes_eq_two_pow, Nat.log2_two_pow]

/-- The equation W = 8 << ww determines the field. -/
theorem Width.field_eq_of_bits {w : Width} {ww : BitVec 2} (h : w.bits = 8 <<< ww.toNat) : w.field = ww := by
  have hpow : 2 ^ w.field.toNat = 2 ^ ww.toNat := by
    rw [Width.bits, w.bytes_eq_two_pow, Nat.shiftLeft_eq] at h
    exact Nat.eq_of_mul_eq_mul_left (by decide) h
  exact BitVec.eq_of_toNat_eq (Nat.pow_right_injective (Nat.le_refl 2) hpow)

/-! ## The layout `00000oww` (R50) -/

/-- A word is its three fields, side by side. -/
theorem fields_append (c : Byte) : reservedBits c ++ operationField c ++ widthField c = c := by
  simp only [reservedBits, operationField, widthField]
  rw [BitVec.extractLsb'_append_extractLsb'_eq_extractLsb' (by decide),
    BitVec.extractLsb'_append_extractLsb'_eq_extractLsb' (by decide), BitVec.extractLsb'_eq_self]

/-- The reserved bits are zero exactly in the words below 0x08 (R50, R54). -/
theorem reservedBits_eq_zero_iff (c : Byte) : reservedBits c = 0#5 ↔ c.toNat < 8 := by
  rw [← BitVec.toNat_inj, reservedBits, BitVec.extractLsb'_toNat, Nat.shiftRight_eq_div_pow, BitVec.toNat_ofNat]
  have := c.isLt
  omega

@[simp] theorem reservedBits_encodeCmd (i : Instr) : reservedBits (encodeCmd i) = 0#5 := by cases i <;> rfl

@[simp] theorem operationField_encodeCmd (i : Instr) : operationField (encodeCmd i) = i.operation := by
  cases i <;> rfl

@[simp] theorem widthField_encodeCmd (i : Instr) : widthField (encodeCmd i) = i.width.field := by cases i <;> rfl

@[simp] theorem Instr.operation_decodeOf (w : Width) : (Instr.decodeOf w).operation = 0#1 := by cases w <;> rfl

@[simp] theorem Instr.operation_encodeOf (w : Width) : (Instr.encodeOf w).operation = 1#1 := by cases w <;> rfl

@[simp] theorem Instr.width_decodeOf (w : Width) : (Instr.decodeOf w).width = w := by cases w <;> rfl

@[simp] theorem Instr.width_encodeOf (w : Width) : (Instr.encodeOf w).width = w := by cases w <;> rfl

theorem encodeCmd_decodeOf_toNat (w : Width) : (encodeCmd (.decodeOf w)).toNat = w.field.toNat := by
  cases w <;> rfl

theorem encodeCmd_encodeOf_toNat (w : Width) : (encodeCmd (.encodeOf w)).toNat = 4 + w.field.toNat := by
  cases w <;> rfl

/-! ## `decode_cmd`, by its fields (R57) -/

theorem decodeCmd_of_reservedBits_ne {c : Byte} (h : reservedBits c ≠ 0#5) : decodeCmd c = .reserved := if_neg h

theorem decodeCmd_of_operation_zero {c : Byte} (h : reservedBits c = 0#5) (ho : operationField c = 0#1) :
    decodeCmd c = .command (.decodeOf (Width.ofField (widthField c))) := by
  rw [decodeCmd, if_pos h, if_pos ho]

theorem decodeCmd_of_operation_ne_zero {c : Byte} (h : reservedBits c = 0#5) (ho : operationField c ≠ 0#1) :
    decodeCmd c = .command (.encodeOf (Width.ofField (widthField c))) := by
  rw [decodeCmd, if_pos h, if_neg ho]

/-- Where the reserved bits are zero, the word decodes to a command whose fields are the word's. -/
theorem decodeCmd_of_reservedBits_eq {c : Byte} (h : reservedBits c = 0#5) :
    ∃ i, decodeCmd c = .command i ∧ i.operation = operationField c ∧ i.width.field = widthField c := by
  by_cases ho : operationField c = 0#1
  · exact ⟨_, decodeCmd_of_operation_zero h ho, by simp [ho], by simp⟩
  · have ho' : operationField c = 1#1 := (BitVec.eq_zero_or_eq_one _).resolve_left ho
    exact ⟨_, decodeCmd_of_operation_ne_zero h ho, by simp [ho'], by simp⟩

theorem decodeCmd_eq_reserved_iff (c : Byte) : decodeCmd c = .reserved ↔ 8 ≤ c.toNat := by
  rw [← Nat.not_lt, ← reservedBits_eq_zero_iff]
  refine ⟨fun h h0 => ?_, decodeCmd_of_reservedBits_ne⟩
  obtain ⟨i, hi, -⟩ := decodeCmd_of_reservedBits_eq h0
  rw [hi] at h
  cases h

theorem decodeCmd_encodeCmd (i : Instr) : decodeCmd (encodeCmd i) = .command i := by
  rcases Machine.instr_cases i with ⟨w, rfl⟩ | ⟨w, rfl⟩
  · rw [decodeCmd_of_operation_zero (by simp) (by simp)]
    simp
  · rw [decodeCmd_of_operation_ne_zero (by simp) (by simp)]
    simp

/-- The word of a decoded command is the word it was decoded from: the command's fields are the word's. -/
theorem encodeCmd_of_decodeCmd {c : Byte} {i : Instr} (h : decodeCmd c = .command i) : encodeCmd i = c := by
  by_cases h0 : reservedBits c = 0#5
  · obtain ⟨i', hi', ho, hw⟩ := decodeCmd_of_reservedBits_eq h0
    obtain rfl : i' = i := Decoded.command.inj (hi'.symm.trans h)
    rw [encodeCmd, ho, hw, ← h0, fields_append]
  · rw [decodeCmd_of_reservedBits_ne h0] at h
    cases h

theorem decodeCmd_eq_command_iff (c : Byte) (i : Instr) : decodeCmd c = .command i ↔ c = encodeCmd i := by
  constructor
  · exact fun h => (encodeCmd_of_decodeCmd h).symm
  · rintro rfl
    exact decodeCmd_encodeCmd i

namespace Machine

/-! ## Reserved words (R54, R113) -/

theorem performCmd_of_reserved {c : Byte} (h : decodeCmd c = .reserved) (s : State) : performCmd c s = .next s := by
  rw [performCmd, h]

theorem decodeCmd_ofNat_eq_reserved_iff {n : Nat} (hn : n < 256) :
    decodeCmd (BitVec.ofNat 8 n) = .reserved ↔ 8 ≤ n := by
  rw [decodeCmd_eq_reserved_iff, BitVec.toNat_ofNat, Nat.mod_eq_of_lt hn]

/-- Of 8 + n numbers in order, all but the first 8 are at least 8. -/
theorem length_filter_eight_le (n : Nat) : ((List.range (8 + n)).filter fun k => 8 ≤ k).length = n := by
  have hlow : (List.range 8).filter (fun k => 8 ≤ k) = [] := by decide
  have hhigh : ((List.range n).map (8 + ·)).filter (fun k => 8 ≤ k) = (List.range n).map (8 + ·) := by
    simp
  rw [List.range_add, List.filter_append, hlow, hhigh, List.nil_append, List.length_map, List.length_range]

/-! ## A mnemonic alone on a line (R58) -/

/-- A line that is the one word of a command stands for `CMD` with the command's word, for every MAXLEN. -/
theorem assembleLine_command (m : MaxLen) {cs : List Char} (i : Instr) (ht : tokenize cs [] = [.word cs])
    (hk : mnemonics.lookup cs = some (.command i)) :
    assembleLine m cs = some (some ⟨.action (.cmd (encodeCmd i)), none⟩) := by
  simp [assembleLine, ht, hk, splitName, statementOf, Statement.wf]

end Machine

end Sys2Proof
end

section
/-!
SUPPORT. The statements of `30_encoding.md` that are settled: R53, R57, R54 and R58.
-/

namespace Sys2Proof.Machine

/-- Settles O1: a word decodes to a command exactly when it is that command's word, and masking a byte with 0xFF
keeps it. -/
theorem commandWordsDecodeAsTabled : Obligations.CommandWordsDecodeAsTabled := by
  refine ⟨decodeCmd_encodeCmd .dec8, decodeCmd_encodeCmd .dec16, decodeCmd_encodeCmd .dec32,
    decodeCmd_encodeCmd .dec64, decodeCmd_encodeCmd .enc8, decodeCmd_encodeCmd .enc16,
    decodeCmd_encodeCmd .enc32, decodeCmd_encodeCmd .enc64,
    fun i => ⟨operationField_encodeCmd i, widthField_encodeCmd i⟩, fun c i => ?_⟩
  have hmask : c &&& 0xFF#8 = c := BitVec.and_allOnes
  rw [hmask, decodeCmd_eq_command_iff]

/-- Settles O3: word and command have the same three fields, so decoding and encoding undo each other. -/
theorem commandCodingIsABijection : Obligations.CommandCodingIsABijection := by
  refine ⟨fun w => ?_, fun i => ?_, fun c hc => ?_, fun c => decodeCmd_of_reservedBits_ne, fun c hc w hw => ?_⟩
  · rw [w.log2_bits_div_eight]
    exact ⟨encodeCmd_decodeOf_toNat w, encodeCmd_encodeOf_toNat w⟩
  · exact ⟨(reservedBits_eq_zero_iff _).mp (reservedBits_encodeCmd i), decodeCmd_encodeCmd i⟩
  · obtain ⟨i, hi, -⟩ := decodeCmd_of_reservedBits_eq ((reservedBits_eq_zero_iff c).mpr hc)
    exact ⟨i, hi, encodeCmd_of_decodeCmd hi⟩
  · have hfield : Width.ofField (widthField c) = w := by
      rw [widthField, ← Width.field_eq_of_bits hw, Width.ofField_field]
    rw [← hfield]
    exact ⟨decodeCmd_of_operation_zero hc, decodeCmd_of_operation_ne_zero hc⟩

/-- Settles O4: a word is reserved exactly when one of its reserved bits is set, that is from 0x08 on. -/
theorem reservedWordsAreNoOperations : Obligations.ReservedWordsAreNoOperations := by
  refine ⟨decodeCmd_eq_reserved_iff, ?_, fun m c s hc => ?_⟩
  · have hreserved : ∀ n ∈ List.range 256,
        decide (decodeCmd (BitVec.ofNat 8 n) = .reserved) = decide (8 ≤ n) := fun n hn =>
      decide_eq_decide.mpr (decodeCmd_ofNat_eq_reserved_iff (List.mem_range.mp hn))
    rw [List.filter_congr hreserved]
    exact length_filter_eight_le 248
  · exact performCmd_of_reserved ((decodeCmd_eq_reserved_iff c).mpr hc) s

/-- Settles O6: each mnemonic is one word of the line and is listed as its command. -/
theorem commandMnemonicsStandForTheirWords : Obligations.CommandMnemonicsStandForTheirWords := fun m =>
  ⟨assembleLine_command m .dec8 rfl rfl, assembleLine_command m .dec16 rfl rfl,
    assembleLine_command m .dec32 rfl rfl, assembleLine_command m .dec64 rfl rfl,
    assembleLine_command m .enc8 rfl rfl, assembleLine_command m .enc16 rfl rfl,
    assembleLine_command m .enc32 rfl rfl, assembleLine_command m .enc64 rfl rfl⟩

end Sys2Proof.Machine
end

section
/-!
SUPPORT. The arithmetic of the datapath (`40_datapath_primitives.md`): the number that bytes write, the accumulation
as a remainder of it, the retained bytes, and the bytes of an encoding.
-/

namespace Sys2Proof.Machine

/-! ## The number a byte sequence writes (R68) -/

@[simp] theorem bigEndian_nil : bigEndian [] = 0 := rfl

theorem bigEndian_cons (b : Byte) (r : ByteSequence) :
    bigEndian (b :: r) = b.toNat * 256 ^ r.length + bigEndian r := by
  simp only [bigEndian, List.length_cons, Fin.sum_univ_succ]
  congr 1
  refine Finset.sum_congr rfl fun i _ => ?_
  simp [Nat.sub_sub, Nat.add_comm]

theorem bigEndian_singleton (b : Byte) : bigEndian [b] = b.toNat := by
  simp [bigEndian_cons]

theorem bigEndian_append (p r : ByteSequence) :
    bigEndian (p ++ r) = bigEndian p * 256 ^ r.length + bigEndian r := by
  induction p with
  | nil => simp
  | cons b p ih =>
    rw [List.cons_append, bigEndian_cons, bigEndian_cons, ih, List.length_append]
    ring

theorem bigEndian_lt (r : ByteSequence) : bigEndian r < 256 ^ r.length := by
  induction r with
  | nil => simp
  | cons b r ih =>
    have hb : b.toNat + 1 ≤ 256 := b.isLt
    calc bigEndian (b :: r) = b.toNat * 256 ^ r.length + bigEndian r := bigEndian_cons b r
      _ < (b.toNat + 1) * 256 ^ r.length := by linarith
      _ ≤ 256 * 256 ^ r.length := Nat.mul_le_mul_right _ hb
      _ = 256 ^ (b :: r).length := by rw [List.length_cons, Nat.pow_succ']

@[simp] theorem bigEndian_zeros (n : Nat) : bigEndian (zeros n) = 0 := by
  induction n with
  | zero => rfl
  | succ n ih =>
    rw [zeros, List.replicate_succ, bigEndian_cons]
    simpa [zeros] using ih

/-- Zero bytes in front write nothing (R72). -/
theorem bigEndian_zeros_append (n : Nat) (r : ByteSequence) : bigEndian (zeros n ++ r) = bigEndian r := by
  simp [bigEndian_append]

theorem pow_256_eq_two_pow (n : Nat) : 256 ^ n = 2 ^ (8 * n) := (Nat.pow_mul 2 8 n).symm

/-! ## The accumulation (R66 to R68) -/

/-- The shifted accumulator and the byte have no set bit in common, so the OR adds (R66). -/
theorem accStep_toNat (a : Word) (b : Byte) : (accStep a b).toNat = (a.toNat * 256 + b.toNat) % 2 ^ 64 := by
  rw [accStep, BitVec.toNat_or, BitVec.toNat_shiftLeft, BitVec.toNat_setWidth, ← Nat.or_mod_two_pow,
    ← Nat.shiftLeft_add_eq_or_of_lt b.isLt, Nat.shiftLeft_eq]

/-- Every accumulation, from any start: one more byte multiplies by 256 and adds, modulo 2^64. -/
theorem foldl_accStep_toNat (r : ByteSequence) (a : Word) :
    (r.foldl accStep a).toNat = (a.toNat * 256 ^ r.length + bigEndian r) % 2 ^ 64 := by
  induction r generalizing a with
  | nil => simp [Nat.mod_eq_of_lt a.isLt]
  | cons b r ih =>
    have hsum : (a.toNat * 256 + b.toNat) * 256 ^ r.length + bigEndian r =
        a.toNat * 256 ^ (b :: r).length + bigEndian (b :: r) := by
      rw [bigEndian_cons, List.length_cons]
      ring
    rw [List.foldl_cons, ih, accStep_toNat, ← hsum, Nat.add_mod, Nat.mod_mul_mod, ← Nat.add_mod]

theorem acc64_toNat_mod (r : ByteSequence) : (acc64 r).toNat = bigEndian r % 2 ^ 64 := by
  rw [acc64, foldl_accStep_toNat]
  simp

theorem acc64_toNat {r : ByteSequence} (h : r.length ≤ 8) : (acc64 r).toNat = bigEndian r := by
  have hlt : bigEndian r < 2 ^ 64 :=
    calc bigEndian r < 256 ^ r.length := bigEndian_lt r
      _ ≤ 256 ^ 8 := Nat.pow_le_pow_right (by decide) h
  rw [acc64_toNat_mod, Nat.mod_eq_of_lt hlt]

theorem acc64_lt {r : ByteSequence} (h : r.length ≤ 8) : (acc64 r).toNat < 2 ^ (8 * r.length) := by
  rw [acc64_toNat h, ← pow_256_eq_two_pow]
  exact bigEndian_lt r

/-- Bytes with eight or more behind them are shifted out (R68): their place values are multiples of 2^64. -/
theorem acc64_append {r : ByteSequence} (h : 8 ≤ r.length) (p : ByteSequence) : acc64 (p ++ r) = acc64 r := by
  have hdvd : 2 ^ 64 ∣ bigEndian p * 256 ^ r.length :=
    (Nat.pow_dvd_pow 256 h).mul_left (bigEndian p)
  apply BitVec.eq_of_toNat_eq
  rw [acc64_toNat_mod, acc64_toNat_mod, bigEndian_append, Nat.add_mod, Nat.mod_eq_zero_of_dvd hdvd]
  simp

/-! ## Suffixes and the retained bytes (R8, R65) -/

theorem suffix_length (s : ByteSequence) (n : Nat) : (suffix s n).length = min s.length n := by
  rw [suffix, List.length_drop]
  omega

theorem append_suffix (s : ByteSequence) (n : Nat) : s.take (s.length - n) ++ suffix s n = s :=
  List.take_append_drop _ s

theorem retained_length (s : ByteSequence) (w : Width) : (retained s w).length = min s.length w.bytes := by
  rw [retained, suffix_length]
  omega

theorem retained_length_le (s : ByteSequence) (w : Width) : (retained s w).length ≤ w.bytes := by
  rw [retained_length]
  exact Nat.min_le_right _ _

/-- A sequence of at most K bytes is retained whole. -/
theorem retained_of_length_le {s : ByteSequence} {w : Width} (h : s.length ≤ w.bytes) : retained s w = s := by
  rw [retained, suffix, Nat.min_eq_left h, Nat.sub_self, List.drop_zero]

theorem retained_of_le_length {s : ByteSequence} {w : Width} (h : w.bytes ≤ s.length) :
    retained s w = suffix s w.bytes := by
  rw [retained, Nat.min_eq_right h]

/-! ## Narrowing and `decode` (R69 to R71) -/

theorem narrow_toNat (w : Width) (a : Word) : (narrow w a).toNat = a.toNat % 2 ^ w.bits :=
  BitVec.toNat_setWidth w.bits a

/-- Narrowing loses nothing of a value that fits the width (R70). -/
theorem narrow_toNat_of_lt {w : Width} {a : Word} (h : a.toNat < 2 ^ w.bits) : (narrow w a).toNat = a.toNat := by
  rw [narrow_toNat, Nat.mod_eq_of_lt h]

theorem acc64_retained_toNat (s : ByteSequence) (w : Width) :
    (acc64 (retained s w)).toNat = bigEndian (retained s w) :=
  acc64_toNat ((retained_length_le s w).trans w.bytes_le)

theorem acc64_retained_lt (s : ByteSequence) (w : Width) :
    (acc64 (retained s w)).toNat < 2 ^ (8 * min s.length w.bytes) := by
  have h := acc64_lt ((retained_length_le s w).trans w.bytes_le)
  rwa [retained_length] at h

theorem two_pow_retained_le (s : ByteSequence) (w : Width) : 2 ^ (8 * min s.length w.bytes) ≤ 2 ^ w.bits :=
  Nat.pow_le_pow_right (by decide) (Nat.mul_le_mul_left 8 (Nat.min_le_right _ _))

theorem narrow_acc64_retained_toNat (s : ByteSequence) (w : Width) :
    (narrow w (acc64 (retained s w))).toNat = (acc64 (retained s w)).toNat :=
  narrow_toNat_of_lt ((acc64_retained_lt s w).trans_le (two_pow_retained_le s w))

theorem decode_toNat (s : ByteSequence) (w : Width) : (decode s w).toNat = bigEndian (retained s w) := by
  rw [decode, narrow_acc64_retained_toNat, acc64_retained_toNat]

theorem decode_toNat_of_length_le {s : ByteSequence} {w : Width} (h : s.length ≤ w.bytes) :
    (decode s w).toNat = bigEndian s := by
  rw [decode_toNat, retained_of_length_le h]

theorem decode_congr {s t : ByteSequence} {w : Width} (h : retained s w = retained t w) :
    decode s w = decode t w := by
  rw [decode, decode, h]

/-! ## The bytes of an encoding (R73 to R75) -/

/-- Masking with 0xFF selects the low eight bits (R73). -/
theorem lowByte_eq_setWidth (a : Word) : lowByte a = a.setWidth 8 := by
  rw [lowByte, BitVec.setWidth_and]
  exact BitVec.and_allOnes

theorem lowByte_toNat (a : Word) : (lowByte a).toNat = a.toNat % 256 := by
  rw [lowByte_eq_setWidth]
  exact BitVec.toNat_setWidth 8 a

/-- With k iterations left, iteration i = k - 1 - j gives the byte that ends at index j (R75). -/
theorem encodeFrom_getElem? {k j : Nat} (hj : j < k) (wrk : Word) (res : ByteSequence) :
    (encodeFrom k wrk res)[j]? = some (lowByte (wrk >>> (8 * (k - 1 - j)))) := by
  induction k generalizing wrk res with
  | zero => omega
  | succ k ih =>
    rw [encodeFrom]
    obtain hlt | rfl := Nat.lt_succ_iff_lt_or_eq.mp hj
    · have hshift : 8 + 8 * (k - 1 - j) = 8 * (k + 1 - 1 - j) := by omega
      rw [ih hlt, ← BitVec.shiftRight_add, hshift]
    · rw [encodeFrom_eq, List.getElem?_append_right (by simp)]
      simp

theorem lowByte_zext64_shiftRight_toNat {w : Width} (v : BitVec w.bits) (i : Nat) :
    (lowByte (zext64 v >>> (8 * i))).toNat = v.toNat / 256 ^ i % 256 := by
  rw [lowByte_toNat, BitVec.toNat_ushiftRight, zext64_toNat, Nat.shiftRight_eq_div_pow, pow_256_eq_two_pow]

/-- Eight bits of `v` from bit 8i on are its digit i to the base 256 (R75). -/
theorem extractLsb'_byte_toNat {n : Nat} (v : BitVec n) (i : Nat) :
    (v.extractLsb' (8 * i) 8).toNat = v.toNat / 256 ^ i % 256 := by
  rw [BitVec.extractLsb'_toNat, Nat.shiftRight_eq_div_pow, pow_256_eq_two_pow]

theorem encode_getElem? {w : Width} (v : BitVec w.bits) {j : Nat} (hj : j < w.bytes) :
    (encode w v)[j]? = some (v.extractLsb' (8 * (w.bytes - 1 - j)) 8) := by
  rw [encode, encodeFrom_getElem? hj]
  congr 1
  apply BitVec.eq_of_toNat_eq
  rw [lowByte_zext64_shiftRight_toNat, extractLsb'_byte_toNat]

end Sys2Proof.Machine
end

section
/-!
SUPPORT. The statements of `40_datapath_primitives.md` that are settled: R66, R68, R70 to R72 and R75.
-/

namespace Sys2Proof.Machine

/-- Settles O21: the step is the shift and the OR by definition, and the OR adds. -/
theorem accumulatorStepIsModular : Obligations.AccumulatorStepIsModular := fun a b =>
  ⟨rfl, accStep_toNat a b⟩

/-- Settles O23: the accumulation is the big-endian sum modulo 2^64; up to eight bytes write less than that, and
bytes before the last eight add multiples of it. -/
theorem accumulationClosedForm : Obligations.AccumulationClosedForm := by
  refine ⟨fun r h => ⟨acc64_toNat h, acc64_lt h⟩, fun r h => ⟨acc64_toNat_mod r, ?_⟩⟩
  have hlast : 8 ≤ (suffix r 8).length := by
    rw [suffix_length]
    omega
  have happ := acc64_append hlast (r.take (r.length - 8))
  rwa [append_suffix] at happ

/-- Settles O24: n <= K retained bytes write a number below 2^(8n) <= 2^W. -/
theorem narrowingLosesNothing : Obligations.NarrowingLosesNothing := by
  refine fun s w => ⟨retained_length s w, acc64_retained_lt s w, two_pow_retained_le s w, ?_⟩
  apply BitVec.eq_of_toNat_eq
  rw [zext64_toNat, narrow_acc64_retained_toNat]

/-- Settles O25: no step of the accumulation and no narrowing loses a bit of the retained number. -/
theorem decodeIsTheRetainedNumber : Obligations.DecodeIsTheRetainedNumber := by
  refine fun w => ⟨fun s => ⟨rfl, decode_toNat s w⟩, ?_, fun b => ?_, fun s t hs ht hst => ?_⟩
  · rw [decode_toNat_of_length_le (Nat.zero_le _), bigEndian_nil]
  · rw [decode_toNat_of_length_le (s := [b]) w.bytes_pos, bigEndian_singleton]
  · apply decode_congr
    rw [retained_of_le_length hs, retained_of_le_length ht, hst]

/-- Settles O26: the padded input has K bytes, so both are retained whole, and the zeros write nothing. -/
theorem shortInputIsZeroExtended : Obligations.ShortInputIsZeroExtended := by
  refine ⟨fun s w h => ?_, by decide⟩
  have hpad : (zeros (w.bytes - s.length) ++ s).length ≤ w.bytes := by
    rw [List.length_append, zeros, List.length_replicate]
    omega
  apply BitVec.eq_of_toNat_eq
  rw [decode_toNat_of_length_le (Nat.le_of_lt h), decode_toNat_of_length_le hpad, bigEndian_zeros_append]

/-- Settles O27: the iteration that writes byte j has shifted the working copy right by 8(K-1-j) bits. -/
theorem encodeClosedForm : Obligations.EncodeClosedForm :=
  ⟨fun _ v _ hj => ⟨_, encode_getElem? v hj, rfl, extractLsb'_byte_toNat v _⟩, by decide⟩

end Sys2Proof.Machine
end

section
/-!
SUPPORT. The decode commands (`41_decode.md`): the whole next state, by the bytes of the window LEN-n .. LEN-1, and the
number that a window of the buffer writes.
-/

namespace Sys2Proof.Machine

/-! ## The accumulation of a window -/

@[simp] theorem acc64_nil : acc64 [] = 0#64 := rfl

/-- The step in the arithmetic of the 64-bit word (R66). -/
theorem accStep_eq_mul_add (a : Word) (b : Byte) : accStep a b = a * 256#64 + b.setWidth 64 := by
  apply BitVec.eq_of_toNat_eq
  rw [accStep_toNat, BitVec.toNat_add, BitVec.toNat_mul, BitVec.toNat_setWidth_of_le (by decide), BitVec.toNat_ofNat]
  omega

@[simp] theorem acc64_singleton (b : Byte) : acc64 [b] = b.setWidth 64 := by
  simp [acc64, accStep_eq_mul_add]

@[simp] theorem acc64_pair (b c : Byte) : acc64 [b, c] = b.setWidth 64 * 256#64 + c.setWidth 64 := by
  simp [acc64, accStep_eq_mul_add]

/-- The number that n bytes of the buffer write, as a sum over their addresses (R68). -/
theorem bigEndian_readRange (m : Memory) (a n : Nat) :
    bigEndian (m.readRange a n) = ∑ i ∈ Finset.range n, (m.read (a + i)).toNat * 256 ^ (n - 1 - i) := by
  rw [bigEndian, ← Fin.sum_univ_eq_sum_range (fun i => (m.read (a + i)).toNat * 256 ^ (n - 1 - i)) n]
  refine Fintype.sum_equiv (finCongr (m.readRange_length a n)) _ _ fun i => ?_
  simp [Memory.readRange_getElem]

/-! ## The next state of a decode command -/

theorem zext64_decode (s : ByteSequence) (w : Width) : zext64 (decode s w) = acc64 (retained s w) := by
  apply BitVec.eq_of_toNat_eq
  rw [zext64_toNat, decode_toNat, acc64_retained_toNat]

/-- Narrowing to the accumulator's own width is the identity (R89). -/
theorem zext64_narrow_w64 (a : Word) : zext64 (narrow .w64 a) = a := by
  apply BitVec.eq_of_toNat_eq
  rw [zext64_toNat, narrow_toNat_of_lt a.isLt]

theorem exec_decodeOf_eq (w : Width) (s : State) :
    exec (.decodeOf w) s =
      .next ((s.setAcc (acc64 (retained s.seq w))).setVal (zext64 (decode s.seq w))) := by
  rw [exec_decodeOf, runDecode, accumulateFrom_eq, State.readRange_retained]
  rfl

/-- `ACC` and `VAL` both take the accumulation of the last n = min(LEN, K) bytes: narrowing loses nothing (R70). -/
theorem exec_decodeOf_window {w : Width} {s : State} {n : Nat} (hn : n = min s.len.toNat w.bytes) :
    exec (.decodeOf w) s =
      .next ((s.setAcc (acc64 (s.buf.readRange (s.len.toNat - n) n))).setVal
        (acc64 (s.buf.readRange (s.len.toNat - n) n))) := by
  have hwindow : s.buf.readRange (s.len.toNat - n) n = retained s.seq w := hn ▸ s.readRange_retained w
  rw [exec_decodeOf_eq, zext64_decode, hwindow]

/-- The bits of `VAL` above W are zero after a decode command (R85). -/
theorem runDecode_val_shiftRight {w : Width} {s t : State} (h : runDecode w s = .next t) :
    t.val >>> w.bits = 0#64 := by
  obtain ⟨-, hval, -⟩ := runDecode_next h
  rw [hval, zext64_shiftRight_bits]

section
variable {w : Width} {s : State} {n v : Nat} (hn : n = min s.len.toNat w.bytes)
  (hv : v = ∑ i ∈ Finset.range n, (s.buf.read (s.len.toNat - n + i)).toNat * 256 ^ (n - 1 - i))

include hv in
theorem window_sum_lt : v < 2 ^ (8 * n) := by
  have hlt := bigEndian_lt (s.buf.readRange (s.len.toNat - n) n)
  rwa [bigEndian_readRange, ← hv, Memory.readRange_length, pow_256_eq_two_pow] at hlt

include hn hv in
theorem window_sum_lt_two_pow_bits : v < 2 ^ w.bits :=
  (window_sum_lt hv).trans_le
    (Nat.pow_le_pow_right (by decide) (Nat.mul_le_mul_left 8 (hn ▸ Nat.min_le_right _ _)))

include hn hv in
/-- At most eight bytes are accumulated exactly (R68). -/
theorem exec_decodeOf_sum :
    exec (.decodeOf w) s = .next ((s.setAcc (BitVec.ofNat 64 v)).setVal (BitVec.ofNat 64 v)) := by
  have hacc : acc64 (s.buf.readRange (s.len.toNat - n) n) = BitVec.ofNat 64 v := by
    apply BitVec.eq_of_toNat_eq
    rw [acc64_toNat_mod, bigEndian_readRange, ← hv, BitVec.toNat_ofNat]
  rw [exec_decodeOf_window hn, hacc]

include hn hv in
/-- An empty sequence has an empty window, which writes 0 (R85). -/
theorem window_sum_eq_zero (h0 : s.len.toNat = 0) : v = 0 := by
  have hn0 : n = 0 := by rw [hn, h0, Nat.zero_min]
  rw [hv, hn0, Finset.sum_range_zero]

end

theorem ofNat_shiftRight_eq_zero {v k : Nat} (h : v < 2 ^ k) : BitVec.ofNat 64 v >>> k = 0#64 := by
  apply BitVec.eq_of_toNat_eq
  rw [BitVec.toNat_ushiftRight, BitVec.toNat_ofNat, Nat.shiftRight_eq_div_pow,
    Nat.div_eq_of_lt ((Nat.mod_le _ _).trans_lt h)]
  rfl

end Sys2Proof.Machine
end

section
/-!
SUPPORT. The statements of `41_decode.md` that are settled: R85 to R89.
-/

namespace Sys2Proof.Machine

/-- Settles O37: the loop folds `acc_step` over the window, which holds the retained bytes. -/
theorem decodeCommandsDecodeTheSequence : Obligations.DecodeCommandsDecodeTheSequence := fun w s =>
  ⟨s.readRange_retained w, exec_decodeOf_eq w s⟩

/-- Settles O38: the window is empty or the one byte at LEN-1. -/
theorem dec8LoadsTheLastByte : Obligations.Dec8LoadsTheLastByte := by
  refine ⟨decodeCmd_encodeCmd .dec8, fun s => ⟨fun h => ?_, fun h => ?_, fun t ht => ?_⟩⟩
  · exact exec_decodeOf_window (w := .w8) (n := 0) (by simp [h])
  · have hn : 1 = min s.len.toNat Width.w8.bytes := (Nat.min_eq_right h).symm
    rw [← acc64_singleton]
    exact exec_decodeOf_window hn
  · change runDecode .w8 s = .next t at ht
    exact ⟨Nat.le_sub_one_of_lt (runDecode_val_lt ht), runDecode_val_shiftRight ht⟩

/-- Settles O39: the window is empty, the one byte at address 0, or the two bytes at LEN-2 and LEN-1. -/
theorem dec16LoadsTheLastTwoBytes : Obligations.Dec16LoadsTheLastTwoBytes := by
  refine ⟨decodeCmd_encodeCmd .dec16, fun s => ⟨fun h => ?_, fun h => ?_, fun h => ?_, fun t ht => ?_⟩⟩
  · exact exec_decodeOf_window (w := .w16) (n := 0) (by simp [h])
  · have hn : 1 = min s.len.toNat Width.w16.bytes := by rw [h]; rfl
    have hbase : s.len.toNat - 1 = 0 := by rw [h]
    rw [← acc64_singleton, ← hbase]
    exact exec_decodeOf_window hn
  · have hn : 2 = min s.len.toNat Width.w16.bytes := (Nat.min_eq_right h).symm
    have hlast : s.len.toNat - 1 = s.len.toNat - 2 + 1 := by omega
    rw [← acc64_pair, hlast]
    exact exec_decodeOf_window hn
  · exact runDecode_val_shiftRight (w := .w16) ht

/-- Settles O40: the window writes a number below 2^(8n) <= 2^32, which the accumulation keeps. -/
theorem dec32LoadsTheLastFourBytes : Obligations.Dec32LoadsTheLastFourBytes :=
  ⟨decodeCmd_encodeCmd .dec32, fun _ _ _ hn hv =>
    ⟨exec_decodeOf_sum (w := .w32) hn hv, window_sum_lt hv,
      ofNat_shiftRight_eq_zero (window_sum_lt_two_pow_bits (w := .w32) hn hv),
      window_sum_eq_zero (w := .w32) hn hv⟩⟩

/-- Settles O41: the window writes a number below 2^(8n) <= 2^64, and the width is the accumulator's. -/
theorem dec64LoadsTheLastEightBytes : Obligations.Dec64LoadsTheLastEightBytes :=
  ⟨decodeCmd_encodeCmd .dec64, fun _ _ _ hn hv =>
    ⟨exec_decodeOf_sum (w := .w64) hn hv, window_sum_lt hv, window_sum_eq_zero (w := .w64) hn hv⟩,
    zext64_narrow_w64⟩

end Sys2Proof.Machine
end

section
/-!
SUPPORT. The encode commands (`42_encode.md`): the loop of R95 as the list of its writes and as one `MemWrite`, the
whole next state, and the sequence it leaves.
-/

namespace Sys2Proof.Machine

/-! ## A range read back after it was written -/

theorem Memory.readRange_writeRange {m : Memory} (hm : m.wf) (a : Nat) (s : ByteSequence) :
    (m.writeRange a s).readRange a s.length = s := by
  refine List.ext_getElem (by simp) fun i h₁ h₂ => ?_
  rw [Memory.readRange_getElem, Memory.read_writeRange hm]
  simp [h₂]

/-! ## The bytes of the value -/

@[simp] theorem encode_length {w : Width} (v : BitVec w.bits) : (encode w v).length = w.bytes :=
  encodeFrom_length w.bytes (zext64 v) []

/-- The bits of `VAL` at and above W are ignored: below W the value has the register's own bytes (R95). -/
theorem extractLsb'_setWidth_byte {w : Width} (v : Word) {i : Nat} (hi : i < w.bytes) :
    (v.setWidth w.bits).extractLsb' (8 * i) 8 = v.extractLsb' (8 * i) 8 := by
  have hbits : w.bits = 8 * w.bytes := rfl
  ext j hj
  have hlt : 8 * i + j < w.bits := by omega
  simp [hlt]

/-- In iteration i the low byte of the working copy is byte i of `VAL`, counted from the least significant (R95). -/
theorem lowByte_valAt_shiftRight {w : Width} (s : State) {i : Nat} (hi : i < w.bytes) :
    lowByte (zext64 (s.valAt w) >>> (8 * i)) = s.val.extractLsb' (8 * i) 8 := by
  rw [← extractLsb'_setWidth_byte s.val hi]
  apply BitVec.eq_of_toNat_eq
  rw [lowByte_zext64_shiftRight_toNat, extractLsb'_byte_toNat, State.valAt]

/-- The encoding of the low W bits of a word: its K low bytes, the most significant first (R75, R95). -/
theorem encode_setWidth (w : Width) (v : Word) :
    encode w (v.setWidth w.bits) = (List.range w.bytes).map fun j => v.extractLsb' (8 * (w.bytes - 1 - j)) 8 := by
  refine List.ext_getElem? fun j => ?_
  by_cases hj : j < w.bytes
  · rw [encode_getElem? _ hj, extractLsb'_setWidth_byte v (by omega)]
    simp [hj]
  · rw [List.getElem?_eq_none (by simpa using hj), List.getElem?_eq_none (by simpa using hj)]

/-! ## The loop of R95 -/

/-- The loop writes the addresses K-1 down to 0, the low byte first (R36, R95), in any buffer. -/
theorem encodeInto_eq_foldr (k : Nat) (wrk : Word) (buf : Memory) :
    (encodeInto k wrk buf).2 =
      (List.range k).foldr (fun j m => m.write j (lowByte (wrk >>> (8 * (k - 1 - j))))) buf := by
  induction k generalizing wrk buf with
  | zero => rfl
  | succ k ih =>
    rw [encodeInto, ih, List.range_succ, List.foldr_append]
    have hlast : buf.write k (lowByte wrk) = [k].foldr
        (fun j m => m.write j (lowByte (wrk >>> (8 * (k + 1 - 1 - j))))) buf := by simp
    rw [← hlast]
    refine List.foldr_ext _ _ _ fun j hj m => ?_
    have hshift : 8 + 8 * (k - 1 - j) = 8 * (k + 1 - 1 - j) := by
      have := List.mem_range.mp hj
      omega
    rw [← BitVec.shiftRight_add, hshift]

/-- In a canonical buffer the loop of R95 is one `MemWrite` of what the loop of R74 collects. -/
theorem encodeInto_eq_writeRange {buf : Memory} (hb : buf.wf) (k : Nat) (wrk : Word) :
    (encodeInto k wrk buf).2 = buf.writeRange 0 (encodeFrom k wrk []) := by
  refine Memory.ext_of_read (encodeInto_wf hb k wrk) (Memory.writeRange_wf hb 0 _) fun a => ?_
  rw [Memory.read_writeRange hb]
  by_cases ha : a < k
  · have hbyte := encodeFrom_getElem? ha wrk []
    obtain ⟨_, hbyte⟩ := List.getElem?_eq_some_iff.mp hbyte
    simp [encodeInto_read_below hb k wrk ha, ha, hbyte]
  · simp [encodeInto_read_above k wrk buf (Nat.le_of_not_lt ha), ha]

/-! ## The next state of an encode command -/

/-- Every encode command leaves `WRK` empty and `LEN` at K, and `BUF` as the loop of R95 leaves it. -/
theorem exec_encodeOf_eq_encodeInto (w : Width) (s : State) :
    exec (.encodeOf w) s = .next (((s.setWrk 0#64).setBuf
      (encodeInto w.bytes (zext64 (s.valAt w)) s.buf).2).setLen (BitVec.ofNat 8 w.bytes)) := by
  have hwrk : (encodeInto w.bytes (zext64 (s.valAt w)) s.buf).1 = 0#64 := by
    rw [encodeInto_wrk]
    exact zext64_shiftRight_bits (s.valAt w)
  rw [exec_encodeOf, runEncode, hwrk]

/-- In every state the command makes the K writes of R95 in the loop's order. -/
theorem exec_encodeOf_eq (w : Width) (s : State) :
    exec (.encodeOf w) s = .next (((s.setWrk 0#64).setBuf ((List.range w.bytes).foldr
      (fun j m => m.write j (s.val.extractLsb' (8 * (w.bytes - 1 - j)) 8)) s.buf)).setLen
        (BitVec.ofNat 8 w.bytes)) := by
  have hbyte (j : Nat) : lowByte (zext64 (s.valAt w) >>> (8 * (w.bytes - 1 - j))) =
      s.val.extractLsb' (8 * (w.bytes - 1 - j)) 8 :=
    lowByte_valAt_shiftRight s (by have := w.bytes_pos; omega)
  rw [exec_encodeOf_eq_encodeInto, encodeInto_eq_foldr]
  simp only [hbyte]

/-- From a canonical buffer the K writes are one `MemWrite` of the encoding. -/
theorem exec_encodeOf_eq_writeRange (w : Width) {s : State} (hs : s.buf.wf) :
    exec (.encodeOf w) s = .next (((s.setWrk 0#64).setBuf
      (s.buf.writeRange 0 (encode w (s.val.setWidth w.bits)))).setLen (BitVec.ofNat 8 w.bytes)) := by
  rw [exec_encodeOf_eq_encodeInto, encodeInto_eq_writeRange hs]
  rfl

theorem ofNat_bytes_toNat (w : Width) : (BitVec.ofNat 8 w.bytes).toNat = w.bytes := by cases w <;> rfl

section
variable {w : Width} {s t : State} (h : exec (.encodeOf w) s = .next t)
include h

/-- No byte at or above K is written, in any buffer (R95). -/
theorem exec_encodeOf_read_above {a : Nat} (ha : w.bytes ≤ a) : t.buf.read a = s.buf.read a := by
  rw [exec_encodeOf] at h
  obtain ⟨-, hbuf, -⟩ := runEncode_next h
  rw [hbuf, encodeInto_read_above _ _ _ ha]

/-- The sequence that an encode command leaves is the encoding it wrote (R95). -/
theorem exec_encodeOf_seq (hs : s.buf.wf) : t.seq = encode w (s.val.setWidth w.bits) := by
  rw [exec_encodeOf_eq_writeRange w hs] at h
  cases h
  have hread := Memory.readRange_writeRange hs 0 (encode w (s.val.setWidth w.bits))
  rw [encode_length] at hread
  simp only [State.seq, State.setLen_buf, State.setLen_len, State.setBuf_buf, ofNat_bytes_toNat, hread]

/-- The K low bytes of `VAL` are the sequence, and the tail of the buffer stays (R96 to R99). -/
theorem exec_encodeOf_seq_bytes (hs : s.buf.wf) :
    t.seq = ((List.range w.bytes).map fun j => s.val.extractLsb' (8 * (w.bytes - 1 - j)) 8) ∧
      ∀ a, w.bytes ≤ a → t.buf.read a = s.buf.read a :=
  ⟨(exec_encodeOf_seq h hs).trans (encode_setWidth w s.val), fun _ => exec_encodeOf_read_above h⟩

end

end Sys2Proof.Machine
end

section
/-!
SUPPORT. The statements of `42_encode.md` that are settled: R95 to R99.
-/

namespace Sys2Proof.Machine

/-- Settles O44: the loop over the buffer writes the bytes that the loop of `encode` collects. -/
theorem encodeCommandsEncodeTheValue : Obligations.EncodeCommandsEncodeTheValue := by
  intro w s hs
  have hexec := exec_encodeOf_eq_writeRange w hs
  have hseq := exec_encodeOf_seq hexec hs
  refine ⟨_, hexec, ?_, hseq, ?_, fun _ => exec_encodeOf_read_above hexec⟩
  · rw [w.bits_div_eight]
    rfl
  · rw [hseq, encode_length]

/-- Settles O45: the loop's one write, at address 0. -/
theorem enc8WritesOneByte : Obligations.Enc8WritesOneByte :=
  ⟨decodeCmd_encodeCmd .enc8, fun s =>
    ⟨exec_encodeOf_eq .w8 s, fun hs _ ht => exec_encodeOf_seq_bytes (w := .w8) ht hs⟩⟩

/-- Settles O46: the loop's two writes, at addresses 1 and 0. -/
theorem enc16WritesTwoBytes : Obligations.Enc16WritesTwoBytes :=
  ⟨decodeCmd_encodeCmd .enc16, fun s =>
    ⟨exec_encodeOf_eq .w16 s, fun hs _ ht => exec_encodeOf_seq_bytes (w := .w16) ht hs⟩⟩

/-- Settles O47: the loop's four writes, at addresses 3 down to 0. -/
theorem enc32WritesFourBytes : Obligations.Enc32WritesFourBytes :=
  ⟨decodeCmd_encodeCmd .enc32, fun s =>
    ⟨exec_encodeOf_eq .w32 s, fun hs _ ht => exec_encodeOf_seq_bytes (w := .w32) ht hs⟩⟩

/-- Settles O48: the loop's eight writes, at addresses 7 down to 0. -/
theorem enc64WritesEightBytes : Obligations.Enc64WritesEightBytes :=
  ⟨decodeCmd_encodeCmd .enc64, fun s =>
    ⟨exec_encodeOf_eq .w64 s, fun hs _ ht => exec_encodeOf_seq_bytes (w := .w64) ht hs⟩⟩

end Sys2Proof.Machine
end


section
/-!
SUPPORT. The host's access (`43_host_access.md`): what each action with a range check does on either side of its bound,
what `WRBUF` leaves of the sequence, and a run of two actions.
-/

namespace Sys2Proof.Machine

/-! ## The range checks of `WRLEN`, `WRBUF` and `RDBUF` (R107, R109, R110) -/

section
variable {m : MaxLen} {n a : BitVec 8}

theorem clampLen_of_le (h : n.toNat ≤ m.val) : clampLen m.val n = n := by
  apply BitVec.eq_of_toNat_eq
  rw [clampLen_toNat, Nat.min_eq_left h]

theorem clampLen_of_ge (h : m.val ≤ n.toNat) : clampLen m.val n = BitVec.ofNat 8 m.val := by
  rw [clampLen, Nat.min_eq_right h]

theorem performWrbuf_of_lt (h : a.toNat < m.val) (b : Byte) (s : State) :
    performWrbuf m a b s = s.setBuf (s.buf.write a.toNat b) := if_pos h

theorem performWrbuf_of_ge (h : m.val ≤ a.toNat) (b : Byte) (s : State) : performWrbuf m a b s = s :=
  if_neg (Nat.not_lt.mpr h)

theorem readBuf_of_lt (h : a.toNat < m.val) (s : State) : readBuf m a s = s.buf.read a.toNat := if_pos h

theorem readBuf_of_ge (h : m.val ≤ a.toNat) (s : State) : readBuf m a s = 0x00#8 := if_neg (Nat.not_lt.mpr h)

end

/-! ## The sequence after one byte was written -/

/-- One written byte replaces the element at its address, if the range reaches that far. -/
theorem Memory.readRange_write {m : Memory} (hm : m.wf) (a n : Nat) (b : Byte) :
    (m.write a b).readRange 0 n = (m.readRange 0 n).set a b := by
  refine List.ext_getElem (by simp) fun i h₁ h₂ => ?_
  rw [List.getElem_set, Memory.readRange_getElem, Memory.readRange_getElem, Memory.read_write hm, Nat.zero_add]
  exact if_congr eq_comm rfl rfl

/-! ## A run of two actions (R115) -/

theorem runActions_cons {m : MaxLen} {a : HostAction} {s t : State} (h : perform m a s = .next t)
    (p : List HostAction) : runActions m (a :: p) s = runActions m p t := by
  rw [runActions, h]

theorem runActions_pair {m : MaxLen} {a a' : HostAction} {s t u : State} (h : perform m a s = .next t)
    (h' : perform m a' t = .next u) : runActions m [a, a'] s = .next u := by
  rw [runActions_cons h, runActions_cons h', runActions]

/-- The word of a command, written to `CMD`, runs the command (R111). -/
theorem perform_cmd_encodeCmd (m : MaxLen) (i : Instr) (s : State) :
    perform m (.cmd (encodeCmd i)) s = exec i s := by
  rw [perform, performCmd, decodeCmd_encodeCmd]

/-- A command and then an action that answers a state. -/
theorem runActions_command_pair {m : MaxLen} {i : Instr} {a : HostAction} {s t u : State}
    (h : exec i s = .next t) (h' : perform m a t = .next u) : runActions m [.cmd (encodeCmd i), a] s = .next u :=
  runActions_pair ((perform_cmd_encodeCmd m i s).trans h) h'

/-- No word written to `CMD` makes the block yield a value: only read actions do (R59, R111). -/
theorem performCmd_next_readings (c : BitVec 8) (s : State) :
    ∃ t, performCmd c s = .next t ∧ t.readings = s.readings := by
  rcases performCmd_cases c s with ⟨w, hw⟩ | ⟨w, hw⟩ | hw
  · exact ⟨_, hw, rfl⟩
  · exact ⟨_, hw, rfl⟩
  · exact ⟨s, hw, rfl⟩

end Sys2Proof.Machine
end

section
/-!
SUPPORT. The statements of `43_host_access.md` that are settled: R105 to R110, R112 and R113.
-/

namespace Sys2Proof.Machine

/-- Settles O51: the encode command takes the low W bits of the written value and leaves `VAL` alone. -/
theorem wrvalWritesTheWholeRegister : Obligations.WrvalWritesTheWholeRegister := by
  refine fun m v s => ⟨rfl, fun w hs => ?_⟩
  have hwrite : perform m (.wrval v) s = .next (s.setVal v) := rfl
  have hexec := exec_encodeOf_eq_writeRange w (s := s.setVal v) hs
  exact ⟨_, runActions_pair hwrite ((perform_cmd_encodeCmd m _ _).trans hexec), rfl, exec_encodeOf_seq hexec hs⟩

/-- Settles O52: a decode command leaves a value of width W in `VAL`, an encode command leaves `VAL` alone. -/
theorem rdvalYieldsTheRegister : Obligations.RdvalYieldsTheRegister := by
  refine fun m s => ⟨rfl, ⟨_, rfl, rfl⟩, fun w => ⟨?_, ?_⟩⟩
  · refine ⟨_, zext64 (decode s.seq w), runActions_command_pair (exec_decodeOf_eq w s) rfl, rfl, ?_⟩
    rw [zext64_toNat]
    exact Nat.le_sub_one_of_lt (decode s.seq w).isLt
  · exact ⟨_, runActions_command_pair (exec_encodeOf_eq_encodeInto w s) rfl, rfl⟩

/-- Settles O54: an encode command leaves K = W/8 in `LEN`, a decode command leaves `LEN` alone. -/
theorem rdlenYieldsTheLength : Obligations.RdlenYieldsTheLength := by
  refine fun m s => ⟨rfl, fun ⟨hlen, _⟩ => hlen, fun w => ⟨?_, ?_⟩⟩
  · rw [w.bits_div_eight]
    exact ⟨_, runActions_command_pair (exec_encodeOf_eq_encodeInto w s) rfl, rfl⟩
  · exact ⟨_, runActions_command_pair (exec_decodeOf_eq w s) rfl, rfl⟩

/-- Settles O55: below MAXLEN the action is one write to the buffer, at or above it nothing. -/
theorem wrbufWritesOneByte : Obligations.WrbufWritesOneByte := by
  refine fun m a b s => ⟨fun h => ?_, fun h => ?_, fun h hs t ht => ?_⟩
  · rw [perform, performWrbuf_of_ge h]
  · rw [perform, performWrbuf_of_lt h, State.setBuf]
  · rw [perform, performWrbuf_of_lt h] at ht
    cases ht
    exact ⟨Memory.read_write_same hs _ b, fun _ => Memory.read_write_other _ b, rfl,
      Memory.readRange_write hs _ _ b⟩

/-- Settles O53: `LEN` takes min(n, MAXLEN), which is n or MAXLEN and fits its 8 bits. -/
theorem wrlenStoresTheClampedLength : Obligations.WrlenStoresTheClampedLength := by
  intro m n s
  have hstored (h : n.toNat ≤ m.val) : perform m (.wrlen n) s = .next { s with len := n } := by
    rw [perform, performWrlen, clampLen_of_le h, State.setLen]
  refine ⟨hstored, fun h => ?_, fun h => hstored (h ▸ Nat.le_of_lt_succ n.isLt), fun t ht => ?_⟩
  · rw [perform, performWrlen, clampLen_of_ge (Nat.le_of_lt h), State.setLen]
  · rw [perform, performWrlen] at ht
    cases ht
    rw [State.seq, State.setLen_len, State.setLen_buf, clampLen_toNat]
    exact ⟨rfl, rfl⟩

/-- Settles O56: the byte yielded is the stored one below MAXLEN and 0x00 at or above it. -/
theorem rdbufYieldsOneByte : Obligations.RdbufYieldsOneByte := by
  refine fun m a s => ⟨fun h => ?_, fun h => ?_⟩
  · rw [perform, performRdbuf, readBuf_of_lt h, State.yield]
  · rw [perform, performRdbuf, readBuf_of_ge h, State.yield]

/-- Settles O58: `RDCMD` yields the constant 0x00, a command yields nothing, and a word from 0x08 on is reserved. -/
theorem commandPortStoresNothing : Obligations.CommandPortStoresNothing := by
  refine ⟨fun _ _ => rfl, fun m c s => ?_, fun _ c s hc _ => ?_⟩
  · obtain ⟨t, ht, hreadings⟩ := performCmd_next_readings c s
    refine ⟨performRdcmd t, runActions_pair ht rfl, ?_⟩
    rw [performRdcmd, State.yield_readings, hreadings]
  · exact performCmd_of_reserved ((decodeCmd_eq_reserved_iff c).mpr hc) s

end Sys2Proof.Machine
end

section
/-!
SUPPORT. The laws of `decode` and `encode` (`44_properties.md`): both are determined by the number that bytes write,
`decode` as its remainder modulo 2^W and `encode` as the one sequence of K bytes that writes it.
-/

namespace Sys2Proof

/-- The powers of 256 and of 2 that bound a value of width W (R4, R52). -/
theorem Width.pow_256_bytes (w : Width) : 256 ^ w.bytes = 2 ^ w.bits := Machine.pow_256_eq_two_pow w.bytes

theorem Width.bytes_le_of_bits_lt {w₁ w₂ : Width} (h : w₁.bits < w₂.bits) : w₁.bytes ≤ w₂.bytes :=
  (Nat.lt_of_mul_lt_mul_left (show 8 * w₁.bytes < 8 * w₂.bytes from h)).le

namespace Machine

/-! ## The number determines the bytes -/

/-- Sequences of one length that write the same number are equal: the base-256 digits are unique. -/
theorem eq_of_bigEndian_eq {s t : ByteSequence} (hlen : s.length = t.length) (h : bigEndian s = bigEndian t) :
    s = t := by
  induction s generalizing t with
  | nil => exact (List.length_eq_zero_iff.mp hlen.symm).symm
  | cons b s ih =>
    cases t with
    | nil => cases hlen
    | cons c t =>
      have hlen' : s.length = t.length := Nat.succ.inj hlen
      rw [bigEndian_cons, bigEndian_cons, ← hlen'] at h
      have hrest : bigEndian s = bigEndian t := by
        have hmod := congrArg (· % 256 ^ s.length) h
        rwa [Nat.mul_add_mod_of_lt (bigEndian_lt s), Nat.mul_add_mod_of_lt (hlen' ▸ bigEndian_lt t)] at hmod
      have hfirst : b.toNat = c.toNat := by
        rw [hrest] at h
        exact Nat.eq_of_mul_eq_mul_right (Nat.pow_pos (by decide)) (Nat.add_right_cancel h)
      rw [BitVec.eq_of_toNat_eq hfirst, ih hlen' hrest]

/-! ## `decode` as a remainder (R65, R71) -/

/-- The last n bytes write the number modulo 256^n, however many bytes there are. -/
theorem bigEndian_suffix (s : ByteSequence) (n : Nat) : bigEndian (suffix s n) = bigEndian s % 256 ^ n := by
  obtain hle | hle := Nat.le_total s.length n
  · have hwhole : suffix s n = s := by rw [suffix, Nat.sub_eq_zero_of_le hle, List.drop_zero]
    have hlt := (bigEndian_lt s).trans_le (Nat.pow_le_pow_right (by decide) hle)
    rw [hwhole, Nat.mod_eq_of_lt hlt]
  · have hlen : (suffix s n).length = n := by rw [suffix_length, Nat.min_eq_right hle]
    have hlt := bigEndian_lt (suffix s n)
    have hsplit := congrArg bigEndian (append_suffix s n)
    rw [bigEndian_append, hlen] at hsplit
    rw [hlen] at hlt
    rw [← hsplit, Nat.mul_add_mod_of_lt hlt]

/-- A suffix cannot be longer than the sequence, so the minimum of R65 can be left out. -/
theorem retained_eq_suffix (s : ByteSequence) (w : Width) : retained s w = suffix s w.bytes := by
  have hstart : s.length - min s.length w.bytes = s.length - w.bytes := by omega
  rw [retained, suffix, suffix, hstart]

theorem decode_toNat_mod (s : ByteSequence) (w : Width) : (decode s w).toNat = bigEndian s % 2 ^ w.bits := by
  rw [decode_toNat, retained_eq_suffix, bigEndian_suffix, w.pow_256_bytes]

/-- Zero bytes in front add nothing to the number (R127). -/
theorem decode_zeros_append (n : Nat) (s : ByteSequence) (w : Width) : decode (zeros n ++ s) w = decode s w := by
  apply BitVec.eq_of_toNat_eq
  rw [decode_toNat_mod, decode_toNat_mod, bigEndian_zeros_append]

/-- Bytes with K or more behind them add a multiple of 2^W (R127). -/
theorem decode_append {s : ByteSequence} {w : Width} (h : w.bytes ≤ s.length) (p : ByteSequence) :
    decode (p ++ s) w = decode s w := by
  have hdvd : 2 ^ w.bits ∣ bigEndian p * 256 ^ s.length :=
    w.pow_256_bytes ▸ (Nat.pow_dvd_pow 256 h).mul_left (bigEndian p)
  apply BitVec.eq_of_toNat_eq
  rw [decode_toNat_mod, decode_toNat_mod, bigEndian_append, Nat.add_mod, Nat.mod_eq_zero_of_dvd hdvd, Nat.zero_add,
    Nat.mod_mod]

/-- A remainder modulo 2^W2 keeps the remainder modulo the smaller 2^W1 (R128). -/
theorem decode_setWidth_of_lt {w₁ w₂ : Width} (h : w₁.bits < w₂.bits) (s : ByteSequence) :
    decode s w₁ = (decode s w₂).setWidth w₁.bits := by
  apply BitVec.eq_of_toNat_eq
  rw [BitVec.toNat_setWidth, decode_toNat_mod, decode_toNat_mod, Nat.mod_mod_of_dvd _ (Nat.pow_dvd_pow 2 h.le)]

theorem decode_le (s : ByteSequence) (w : Width) : (decode s w).toNat ≤ 256 ^ min s.length w.bytes - 1 := by
  rw [decode_toNat, ← retained_length]
  exact Nat.le_sub_one_of_lt (bigEndian_lt _)

/-! ## `encode` as the sequence that writes the value (R74, R75) -/

/-- k iterations of the loop of R74 collect the last k base-256 digits of the working copy. -/
theorem bigEndian_encodeFrom (k : Nat) (wrk : Word) : bigEndian (encodeFrom k wrk []) = wrk.toNat % 256 ^ k := by
  induction k generalizing wrk with
  | zero => simp [encodeFrom, Nat.mod_one]
  | succ k ih =>
    have hdigits : wrk.toNat % 256 ^ (k + 1) = wrk.toNat % 256 + 256 * (wrk.toNat / 256 % 256 ^ k) := by
      rw [Nat.pow_succ', Nat.mod_mul]
    have hshift : (wrk >>> 8).toNat = wrk.toNat / 256 := by
      rw [BitVec.toNat_ushiftRight, Nat.shiftRight_eq_div_pow]
    rw [encodeFrom, encodeFrom_eq, bigEndian_append, ih, bigEndian_singleton, lowByte_toNat, hshift, hdigits,
      List.length_singleton]
    omega

@[simp] theorem bigEndian_encode {w : Width} (v : BitVec w.bits) : bigEndian (encode w v) = v.toNat := by
  rw [encode, bigEndian_encodeFrom, zext64_toNat, w.pow_256_bytes, Nat.mod_eq_of_lt v.isLt]

/-- `encode` gives the only sequence of K bytes that writes the value. -/
theorem encode_eq_of_bigEndian {w : Width} {v : BitVec w.bits} {s : ByteSequence} (hlen : s.length = w.bytes)
    (h : bigEndian s = v.toNat) : encode w v = s :=
  eq_of_bigEndian_eq ((encode_length v).trans hlen.symm) ((bigEndian_encode v).trans h.symm)

/-- Decoding an encoding at any width truncates or zero-extends the value (R120, R130). -/
theorem decode_encode_setWidth {w : Width} (v : BitVec w.bits) (w' : Width) :
    decode (encode w v) w' = v.setWidth w'.bits := by
  apply BitVec.eq_of_toNat_eq
  rw [decode_toNat_mod, bigEndian_encode, BitVec.toNat_setWidth]

@[simp] theorem decode_encode {w : Width} (v : BitVec w.bits) : decode (encode w v) w = v := by
  rw [decode_encode_setWidth, BitVec.setWidth_eq]

/-- Encoding what was decoded cuts the sequence to its last K bytes or pads it with zeros to K bytes (R125). -/
theorem encode_decode (s : ByteSequence) (w : Width) :
    encode w (decode s w) = zeros (w.bytes - min s.length w.bytes) ++ suffix s (min s.length w.bytes) := by
  apply encode_eq_of_bigEndian
  · rw [List.length_append, suffix_length, zeros, List.length_replicate]
    omega
  · rw [bigEndian_zeros_append, decode_toNat, retained]

theorem encode_decode_of_length_eq {s : ByteSequence} {w : Width} (h : s.length = w.bytes) :
    encode w (decode s w) = s :=
  encode_eq_of_bigEndian h (decode_toNat_of_length_le h.le).symm

/-- The last W1/8 bytes of the longer encoding write the value modulo 2^W1 (R129). -/
theorem encode_setWidth_eq_suffix {w₁ w₂ : Width} (h : w₁.bits < w₂.bits) (v : Word) :
    encode w₁ (v.setWidth w₁.bits) = suffix (encode w₂ (v.setWidth w₂.bits)) w₁.bytes := by
  apply encode_eq_of_bigEndian
  · rw [suffix_length, encode_length, Nat.min_eq_right (Width.bytes_le_of_bits_lt h)]
  · rw [bigEndian_suffix, bigEndian_encode, w₁.pow_256_bytes, BitVec.toNat_setWidth, BitVec.toNat_setWidth,
      Nat.mod_mod_of_dvd _ (Nat.pow_dvd_pow 2 h.le)]

/-- The first byte is the most significant base-256 digit (R131). -/
theorem encode_first_eq_zero {w : Width} {v : BitVec w.bits} (h : v.toNat < 2 ^ (w.bits - 8)) :
    (encode w v)[0]? = some 0x00#8 := by
  have hbits : w.bits - 8 = 8 * (w.bytes - 1) := by
    rw [Width.bits]
    omega
  rw [hbits, ← pow_256_eq_two_pow] at h
  rw [encode_getElem? v w.bytes_pos]
  congr 1
  apply BitVec.eq_of_toNat_eq
  rw [extractLsb'_byte_toNat, Nat.sub_zero, Nat.div_eq_of_lt h]
  rfl

/-! ## Zero-extension to the register and back (R7, R130) -/

/-- The low W bits of a zero-extended value of width W are the value. -/
@[simp] theorem zext64_setWidth {w : Width} (v : BitVec w.bits) : (zext64 v).setWidth w.bits = v := by
  rw [zext64, BitVec.setWidth_setWidth_of_le _ w.bits_le, BitVec.setWidth_eq]

/-- Extending by way of a larger width extends all the same. -/
theorem zext64_setWidth_of_lt {w₁ w₂ : Width} (h : w₁.bits < w₂.bits) (v : BitVec w₁.bits) :
    zext64 (v.setWidth w₂.bits : BitVec w₂.bits) = zext64 v := by
  apply BitVec.eq_of_toNat_eq
  rw [zext64_toNat, zext64_toNat, BitVec.toNat_setWidth_of_le h.le]

/-- A word that fits the width is its own low W bits, zero-extended (R120). -/
theorem zext64_setWidth_word {w : Width} {v : Word} (h : v.toNat < 2 ^ w.bits) :
    zext64 (v.setWidth w.bits : BitVec w.bits) = v := by
  apply BitVec.eq_of_toNat_eq
  rw [zext64_toNat, BitVec.toNat_setWidth, Nat.mod_eq_of_lt h]

theorem State.valAt_setWidth_of_lt {w₁ w₂ : Width} (h : w₁.bits < w₂.bits) (s : State) :
    (s.valAt w₂).setWidth w₁.bits = s.valAt w₁ :=
  BitVec.setWidth_setWidth_of_le s.val h.le

/-! ## Commands one after another -/

@[simp] theorem State.seq_length (s : State) : s.seq.length = s.len.toNat :=
  Memory.readRange_length s.buf 0 s.len.toNat

/-- States with the same sequence have the same `LEN` and the same bytes below it (R12). -/
theorem State.len_buf_of_seq_eq {s t : State} (h : s.seq = t.seq) :
    s.len = t.len ∧ ∀ a < s.len.toNat, s.buf.read a = t.buf.read a := by
  have hlen : s.len.toNat = t.len.toNat := by simpa using congrArg List.length h
  refine ⟨BitVec.eq_of_toNat_eq hlen, fun a ha => ?_⟩
  have hget := List.getElem_of_eq h (i := a) (by simpa using ha)
  simpa [State.seq, Memory.readRange_getElem] using hget

/-- A command always answers a next state (R135). -/
theorem exec_completes (i : Instr) (s : State) : Completes (exec i s) := by
  rcases instr_cases i with ⟨w, rfl⟩ | ⟨w, rfl⟩
  · exact ⟨_, exec_decodeOf_eq w s⟩
  · exact ⟨_, exec_encodeOf_eq_encodeInto w s⟩

section
variable {w w' : Width} {s t u : State}

theorem exec_encodeOf_len (h : exec (.encodeOf w) s = .next t) : t.len.toNat = w.bytes := by
  rw [exec_encodeOf] at h
  obtain ⟨-, -, hlen, -⟩ := runEncode_next h
  rw [hlen, ofNat_bytes_toNat]

theorem exec_encodeOf_wf (h : exec (.encodeOf w) s = .next t) (hs : s.buf.wf) : t.buf.wf := by
  rw [exec_encodeOf] at h
  obtain ⟨-, hbuf, -⟩ := runEncode_next h
  exact hbuf ▸ encodeInto_wf hs _ _

theorem exec_decodeOf_val (h : exec (.decodeOf w) s = .next t) : t.val = zext64 (decode s.seq w) := by
  rw [exec_decodeOf_eq] at h
  cases h
  rfl

theorem exec_decodeOf_buf (h : exec (.decodeOf w) s = .next t) : t.buf = s.buf := by
  rw [exec_decodeOf_eq] at h
  cases h
  rfl

/-- Through the buffer, `VAL` at one width becomes `VAL` at the other (R120, R130). -/
theorem exec_encodeOf_decodeOf_val (hs : s.buf.wf) (henc : exec (.encodeOf w) s = .next t)
    (hdec : exec (.decodeOf w') t = .next u) : u.val = zext64 ((s.valAt w).setWidth w'.bits : BitVec w'.bits) := by
  rw [exec_decodeOf_val hdec, exec_encodeOf_seq henc hs, decode_encode_setWidth]
  rfl

/-- The sequence is replaced by the encoding of its decoded value (R125). -/
theorem exec_decodeOf_encodeOf_seq (hs : s.buf.wf) (hdec : exec (.decodeOf w) s = .next t)
    (henc : exec (.encodeOf w) t = .next u) : u.seq = encode w (decode s.seq w) := by
  rw [exec_encodeOf_seq henc (exec_decodeOf_buf hdec ▸ hs), exec_decodeOf_val hdec, zext64_setWidth]

end

end Machine

end Sys2Proof
end

section
/-!
SUPPORT. The statements of `44_properties.md` that are settled: R120 to R122, R125 to R131.
-/

namespace Sys2Proof.Machine

/-- Settles O28: the encoding writes the value's number in K bytes, and decoding K bytes loses none of it. -/
theorem decodeOfEncodeRoundTrip : Obligations.DecodeOfEncodeRoundTrip := by
  refine ⟨fun _ => decode_encode, fun m w v s hs => ?_⟩
  have hwrite : perform m (.wrval v) s = .next (s.setVal v) := rfl
  obtain ⟨t, henc⟩ := exec_completes (.encodeOf w) (s.setVal v)
  obtain ⟨u, hdec⟩ := exec_completes (.decodeOf w) t
  have hval : u.val = zext64 (v.setWidth w.bits : BitVec w.bits) := by
    rw [exec_encodeOf_decodeOf_val (s := s.setVal v) hs henc hdec, BitVec.setWidth_eq]
    rfl
  refine ⟨u, ?_, hval, fun hv => hval.trans (zext64_setWidth_word hv)⟩
  rw [runActions_cons hwrite, runActions_command_pair henc ((perform_cmd_encodeCmd m _ t).trans hdec)]

/-- Settles O29: each iteration of the loop of R74 puts one byte in front, and R95 loads K into `LEN`. -/
theorem encodedLengthIsFixed : Obligations.EncodedLengthIsFixed := by
  refine ⟨fun w v => ?_, fun w s => ?_⟩ <;> rw [w.bits_div_eight]
  · exact encode_length v
  · obtain ⟨t, henc⟩ := exec_completes (.encodeOf w) s
    exact ⟨t, henc, exec_encodeOf_len henc⟩

/-- Settles O30: the first encoding leaves K bytes, and encoding what was decoded gives K bytes back. -/
theorem encodeDecodeEncodeIsEncode : Obligations.EncodeDecodeEncodeIsEncode := by
  refine ⟨fun w v => encode_decode_of_length_eq (encode_length v), fun w s hs => ?_⟩
  obtain ⟨t, henc⟩ := exec_completes (.encodeOf w) s
  obtain ⟨u, hdec⟩ := exec_completes (.decodeOf w) t
  obtain ⟨x, henc'⟩ := exec_completes (.encodeOf w) u
  have hseq : x.seq = t.seq := by
    rw [exec_decodeOf_encodeOf_seq (exec_encodeOf_wf henc hs) hdec henc']
    exact encode_decode_of_length_eq (t.seq_length.trans (exec_encodeOf_len henc))
  obtain ⟨hlen, hbytes⟩ := State.len_buf_of_seq_eq hseq
  rw [exec_encodeOf_len henc'] at hbytes
  exact ⟨t, u, x, henc, hdec, henc', hlen, hbytes⟩

/-- Settles O31: the cut or padded sequence has K bytes and writes the decoded number. -/
theorem encodeOfDecodeCutsOrPads : Obligations.EncodeOfDecodeCutsOrPads := by
  refine ⟨encode_decode, fun w s hs => ?_⟩
  obtain ⟨t, hdec⟩ := exec_completes (.decodeOf w) s
  obtain ⟨u, henc⟩ := exec_completes (.encodeOf w) t
  refine ⟨t, u, hdec, henc, ?_⟩
  rw [exec_decodeOf_encodeOf_seq hs hdec henc, encode_decode, s.seq_length]

/-- Settles O32: `decode` at W is a left inverse, and on the sequences of K bytes a right inverse. -/
theorem encodeIsABijection : Obligations.EncodeIsABijection := fun w =>
  ⟨Function.LeftInverse.injective (g := fun s => decode s w) decode_encode,
    fun v => ⟨encode_length v, decode_encode v⟩, fun _ => encode_decode_of_length_eq⟩

/-- Settles O33: the bytes in front add nothing, or a multiple of 2^W, to the number. -/
theorem leadingBytesDoNotMatter : Obligations.LeadingBytesDoNotMatter :=
  ⟨fun s w n => decode_zeros_append n s w, fun p _ _ h => decode_append h p⟩

/-- Settles O34: remainders modulo 2^W1 factor through remainders modulo 2^W2, on values and on the numbers that
bytes write. -/
theorem widthsAgreeOnLowBytes : Obligations.WidthsAgreeOnLowBytes := by
  intro w₁ w₂ h
  rw [w₁.bits_div_eight]
  refine ⟨decode_setWidth_of_lt h, encode_setWidth_eq_suffix h, fun s hs => ?_⟩
  obtain ⟨t, henc⟩ := exec_completes (.encodeOf w₁) s
  have hseq := exec_encodeOf_seq henc hs
  rw [State.seq, exec_encodeOf_len henc] at hseq
  exact ⟨t, henc, hseq.trans (encode_setWidth_eq_suffix h s.val)⟩

/-- Settles O35: the narrower command cuts the value to W1 bits, whether it comes second or first. -/
theorem widthChangesThroughTheBuffer : Obligations.WidthChangesThroughTheBuffer := by
  refine fun w₁ w₂ s h hs => ⟨?_, ?_⟩
  · obtain ⟨t, henc⟩ := exec_completes (.encodeOf w₂) s
    obtain ⟨u, hdec⟩ := exec_completes (.decodeOf w₁) t
    refine ⟨t, u, henc, hdec, ?_⟩
    rw [exec_encodeOf_decodeOf_val hs henc hdec, State.valAt_setWidth_of_lt h]
  · obtain ⟨t, henc⟩ := exec_completes (.encodeOf w₁) s
    obtain ⟨u, hdec⟩ := exec_completes (.decodeOf w₂) t
    refine ⟨t, u, henc, hdec, ?_⟩
    rw [exec_encodeOf_decodeOf_val hs henc hdec, zext64_setWidth_of_lt h]

/-- Settles O36: n = min(len(s), K) retained bytes write a number below 256^n <= 2^W, and the first encoded byte is
the most significant digit of v. -/
theorem decodeAndEncodeBounds : Obligations.DecodeAndEncodeBounds := by
  refine ⟨fun s w => ⟨decode_le s w, ?_⟩, fun w v => ⟨fun b _ => Nat.le_sub_one_of_lt b.isLt, encode_first_eq_zero⟩⟩
  rw [pow_256_eq_two_pow]
  exact Nat.sub_le_sub_right (two_pow_retained_le s w) 1

end Sys2Proof.Machine
end

section
/-!
SUPPORT. The operations of the codec, continued: the codes of the host actions (`30_encoding.md` R61), the shifts by 8
(`40_datapath_primitives.md` R76), and the decode and encode commands by their operands and when they are repeated
(`41_decode.md` R90, `42_encode.md` R100).
-/

namespace Sys2Proof.Machine

/-! ## The codes of the host actions (R61) -/

theorem HostAction.code_wf (a : HostAction) : a.code.wf = true := by
  have hlt {n : Nat} (x : BitVec n) : decide (x.toNat < 2 ^ n) = true := decide_eq_true x.isLt
  cases a with
  | wrbuf a b => exact Bool.and_eq_true_iff.mpr ⟨hlt a, hlt b⟩
  | rdbuf a => exact Bool.and_eq_true_iff.mpr ⟨hlt a, rfl⟩
  | wrval v => exact hlt v
  | wrlen n => exact hlt n
  | cmd c => exact hlt c
  | rdval => rfl
  | rdlen => rfl
  | rdcmd => rfl

theorem HostAction.ofCode_of_not_wf {c : ActionCode} (h : c.wf = false) : HostAction.ofCode c = none := by
  simp [HostAction.ofCode, h]

theorem HostAction.ofCode_code (a : HostAction) : HostAction.ofCode a.code = some a := by
  rw [HostAction.ofCode, if_pos a.code_wf]
  cases a <;> simp [HostAction.code]

/-- A well-formed triple's data fits its port (R61). -/
theorem ActionCode.data_toNat_ofNat {p : Port} {a : Option Nat} {d : Nat}
    (h : (ActionCode.mk p a (some d)).wf = true) : (BitVec.ofNat p.dataBits d).toNat = d :=
  (BitVec.toNat_ofNat d _).trans (Nat.mod_eq_of_lt (of_decide_eq_true (Bool.and_eq_true_iff.mp h).2))

/-- A well-formed triple's buffer address fits 8 bits (R30, R61). -/
theorem ActionCode.address_toNat_ofNat {a : Nat} {d : Option Nat}
    (h : (ActionCode.mk .buf (some a) d).wf = true) : (BitVec.ofNat 8 a).toNat = a :=
  (BitVec.toNat_ofNat a _).trans (Nat.mod_eq_of_lt (of_decide_eq_true (Bool.and_eq_true_iff.mp h).1))

/-- Every well-formed triple is the code of an action: the read or the write of its port (R61). -/
theorem ActionCode.exists_code_eq {c : ActionCode} (h : c.wf = true) : ∃ a : HostAction, a.code = c := by
  have haddress := (Bool.and_eq_true_iff.mp h).1
  obtain ⟨port, address, data⟩ := c
  match port, address, data with
  | .val, none, none => exact ⟨.rdval, rfl⟩
  | .val, none, some d =>
    exact ⟨.wrval (BitVec.ofNat 64 d), congrArg (ActionCode.mk .val none ∘ some) (ActionCode.data_toNat_ofNat h)⟩
  | .len, none, none => exact ⟨.rdlen, rfl⟩
  | .len, none, some d =>
    exact ⟨.wrlen (BitVec.ofNat 8 d), congrArg (ActionCode.mk .len none ∘ some) (ActionCode.data_toNat_ofNat h)⟩
  | .buf, some a, none =>
    exact ⟨.rdbuf (BitVec.ofNat 8 a), by rw [HostAction.code, ActionCode.address_toNat_ofNat h]⟩
  | .buf, some a, some d =>
    have hd : (BitVec.ofNat 8 d).toNat = d := ActionCode.data_toNat_ofNat h
    exact ⟨.wrbuf (BitVec.ofNat 8 a) (BitVec.ofNat 8 d), by
      rw [HostAction.code, ActionCode.address_toNat_ofNat h, hd]⟩
  | .cmd, none, none => exact ⟨.rdcmd, rfl⟩
  | .cmd, none, some d =>
    exact ⟨.cmd (BitVec.ofNat 8 d), congrArg (ActionCode.mk .cmd none ∘ some) (ActionCode.data_toNat_ofNat h)⟩
  | .buf, none, _ => cases haddress
  | .val, some _, _ => cases haddress
  | .len, some _, _ => cases haddress
  | .cmd, some _, _ => cases haddress

/-! ## The shifts by 8 (R76) -/

theorem shiftLeft_eight_toNat (a : Word) : (a <<< 8).toNat = a.toNat * 256 % 2 ^ 64 := by
  rw [BitVec.toNat_shiftLeft, Nat.shiftLeft_eq]

theorem shiftRight_eight_toNat (a : Word) : (a >>> 8).toNat = a.toNat / 256 := by
  rw [BitVec.toNat_ushiftRight, Nat.shiftRight_eq_div_pow]

/-- The byte fills the bits that the shift left empty, so the OR adds (R66, R76). -/
theorem shiftLeft_eight_or_byte (a : Word) (b : Byte) : (a <<< 8) ||| b.setWidth 64 = (a <<< 8) + b.setWidth 64 := by
  have hshift : a <<< 8 = a * 256#64 := by
    apply BitVec.eq_of_toNat_eq
    rw [shiftLeft_eight_toNat, BitVec.toNat_mul, BitVec.toNat_ofNat]
  rw [← accStep, accStep_eq_mul_add, hshift]

/-! ## The decode commands by their operands (R90) -/

theorem eq_decodeOf_of_mem {i : Instr} (h : i ∈ [Instr.dec8, .dec16, .dec32, .dec64]) : ∃ w, i = .decodeOf w := by
  rcases instr_cases i with hdec | ⟨w, rfl⟩
  · exact hdec
  · cases w <;> simp [Instr.encodeOf] at h

theorem eq_encodeOf_of_mem {i : Instr} (h : i ∈ [Instr.enc8, .enc16, .enc32, .enc64]) : ∃ w, i = .encodeOf w := by
  rcases instr_cases i with ⟨w, rfl⟩ | henc
  · cases w <;> simp [Instr.decodeOf] at h
  · exact henc

/-- States with one `LEN` and the same bytes in the window LEN-K .. LEN-1 decode to the same value (R90). -/
theorem exec_decodeOf_val_congr {w : Width} {s t s' t' : State} (hlen : s.len = t.len)
    (hbytes : ∀ a, s.len.toNat - w.bytes ≤ a → a < s.len.toNat → s.buf.read a = t.buf.read a)
    (hs : exec (.decodeOf w) s = .next s') (ht : exec (.decodeOf w) t = .next t') : s'.val = t'.val := by
  obtain ⟨n, hn⟩ : ∃ n, n = min s.len.toNat w.bytes := ⟨_, rfl⟩
  have hwindow : s.buf.readRange (s.len.toNat - n) n = t.buf.readRange (s.len.toNat - n) n :=
    Memory.readRange_congr fun i hi => hbytes _ (by omega) (by omega)
  rw [exec_decodeOf_window hn] at hs
  rw [exec_decodeOf_window (hlen ▸ hn), ← hlen, ← hwindow] at ht
  cases hs
  cases ht
  rfl

theorem exec_decodeOf_seq {w : Width} {s t : State} (h : exec (.decodeOf w) s = .next t) : t.seq = s.seq := by
  rw [exec_decodeOf] at h
  obtain ⟨-, -, hbuf, hlen, -⟩ := runDecode_next h
  exact State.seq_congr hbuf hlen

/-! ## The encode commands, byte by byte and repeated (R100) -/

/-- Writing the same bytes again changes nothing. -/
theorem encodeInto_encodeInto {buf : Memory} (hb : buf.wf) (k : Nat) (wrk : Word) :
    (encodeInto k wrk (encodeInto k wrk buf).2).2 = (encodeInto k wrk buf).2 := by
  have hb' := encodeInto_wf hb k wrk
  refine Memory.ext_of_read (encodeInto_wf hb' k wrk) hb' fun a => ?_
  obtain ha | ha := Nat.lt_or_ge a k
  · rw [encodeInto_read_below hb' k wrk ha, encodeInto_read_below hb k wrk ha]
  · exact encodeInto_read_above k wrk _ ha

section
variable {w : Width} {s t : State} (h : exec (.encodeOf w) s = .next t) (hs : s.buf.wf)
include h hs

/-- The encode command reads `VAL` only and leaves it, so a second run writes the same again. -/
theorem exec_encodeOf_again : exec (.encodeOf w) t = .next t := by
  rw [exec_encodeOf_eq_encodeInto] at h
  cases h
  rw [exec_encodeOf_eq_encodeInto]
  simp only [State.valAt, State.setLen_val, State.setBuf_val, State.setWrk_val, State.setLen_buf, State.setBuf_buf,
    encodeInto_encodeInto hs]
  rfl

theorem exec_encodeOf_read_below {j : Nat} (hj : j < w.bytes) :
    t.buf.read j = s.val.extractLsb' (8 * (w.bytes - 1 - j)) 8 := by
  rw [exec_encodeOf] at h
  obtain ⟨-, hbuf, -⟩ := runEncode_next h
  rw [hbuf, encodeInto_read_below hs _ _ hj, lowByte_valAt_shiftRight s (by omega)]

end

end Sys2Proof.Machine
end

section
/-!
SUPPORT. The statements about encodings, the datapath and the corner cases and frames of the commands that are settled:
R52, R61, R76, R90 and R100.
-/

namespace Sys2Proof.Machine

/-- Settles O2: each width is 8 * 2^ww bits, and field and width determine each other. -/
theorem widthFieldNamesTheFourWidths : Obligations.WidthFieldNamesTheFourWidths := by
  refine ⟨fun ww => ?_, fun w => ⟨w.ofField_field, ?_, w.bits_div_eight.symm⟩⟩
  · have hbytes : (Width.ofField ww).bytes = 2 ^ ww.toNat := by
      rw [Width.bytes_eq_two_pow, Width.field_ofField]
    refine ⟨?_, hbytes, Width.field_ofField ww⟩
    rw [Width.bits, hbytes, Nat.shiftLeft_eq]
  · cases w <;> decide

/-- Settles O5: the reader undoes the code of every action, and the well-formed triples are the codes. -/
theorem actionCodesRoundTrip : Obligations.ActionCodesRoundTrip := by
  refine ⟨fun _ => rfl, rfl, fun _ => rfl, rfl, fun _ _ => rfl, fun _ => rfl, fun _ => rfl, rfl,
    fun a => ⟨a.code_wf, a.ofCode_code⟩, fun c hc => ?_, fun _ => HostAction.ofCode_of_not_wf⟩
  obtain ⟨a, rfl⟩ := ActionCode.exists_code_eq hc
  exact ⟨a, a.ofCode_code, rfl⟩

/-- Settles O22: each operation is its arithmetic on the numbers. -/
theorem datapathOperationLaws : Obligations.DatapathOperationLaws := fun a b w v =>
  ⟨shiftLeft_eight_toNat a, shiftLeft_eight_or_byte a b, narrow_toNat w a, lowByte_toNat a,
    (lowByte_eq_setWidth a).trans (BitVec.setWidth_eq_extractLsb' (by decide)), shiftRight_eight_toNat a, zext64_toNat v⟩

/-- Settles O42: the value is computed from the window of the last min(LEN, K) bytes, which the command keeps. -/
theorem decodeCornerCases : Obligations.DecodeCornerCases := by
  refine fun w => ⟨fun s t hlen hbytes => ?_, fun s => ?_⟩
  · obtain ⟨s', hs⟩ := exec_completes (.decodeOf w) s
    obtain ⟨t', ht⟩ := exec_completes (.decodeOf w) t
    exact ⟨s', t', hs, ht, exec_decodeOf_val_congr hlen hbytes hs ht⟩
  · obtain ⟨t, ht⟩ := exec_completes (.decodeOf w) s
    obtain ⟨u, hu⟩ := exec_completes (.decodeOf w) t
    have hval : t.val.toNat = (decode s.seq w).toNat := by rw [exec_decodeOf_val ht, zext64_toNat]
    refine ⟨t, u, ht, hu, ?_, ?_, ?_, ?_⟩
    · rw [exec_decodeOf_val hu, exec_decodeOf_val ht, exec_decodeOf_seq ht]
    · exact runDecode_val_shiftRight ((exec_decodeOf w s).symm.trans ht)
    · rw [hval, decode_toNat]
    · rw [hval, ← pow_256_eq_two_pow, ← s.seq_length]
      exact decode_le s.seq w

/-- Settles O43: a decode command writes `ACC` and `VAL`. -/
theorem decodeCommandsFrame : Obligations.DecodeCommandsFrame := by
  intro i s t hi h
  obtain ⟨w, rfl⟩ := eq_decodeOf_of_mem hi
  rw [exec_decodeOf] at h
  obtain ⟨-, -, hbuf, hlen, hwrk, hinputs, hreadings⟩ := runDecode_next h
  exact ⟨fun a => by rw [hbuf], hlen, hwrk, hinputs, hreadings⟩

/-- Settles O49: the loop of R95 leaves byte j of the value at address j and touches no address from K on; `VAL`, which
it reads, stays. -/
theorem encodeCornerCases : Obligations.EncodeCornerCases := by
  intro w s hs
  obtain ⟨t, h⟩ := exec_completes (.encodeOf w) s
  have hrun := (exec_encodeOf w s).symm.trans h
  obtain ⟨-, -, -, hval, -⟩ := runEncode_next hrun
  exact ⟨t, h, exec_encodeOf_again h hs, hval, runEncode_wrk hrun, exec_encodeOf_len h,
    fun _ => exec_encodeOf_read_below h hs, fun _ => exec_encodeOf_read_above h⟩

/-- Settles O50: an encode command writes `WRK`, `LEN` and the addresses below K. -/
theorem encodeCommandsFrame : Obligations.EncodeCommandsFrame := by
  intro i s t hi h
  obtain ⟨w, rfl⟩ := eq_encodeOf_of_mem hi
  rw [Instr.width_encodeOf, Nat.zero_add]
  obtain ⟨-, -, -, hval, hacc, hinputs, hreadings⟩ := runEncode_next ((exec_encodeOf w s).symm.trans h)
  exact ⟨fun _ => exec_encodeOf_read_above h, hval, hacc, hinputs, hreadings⟩

end Sys2Proof.Machine
end

section
/-!
SUPPORT. What one host action, one input and one step can do, said once (`10_state.md` R23, `43_host_access.md`), and
the two ways to use it: what every step keeps, and what every action of a program keeps.
-/

namespace Sys2Proof.Machine

/-! ## The effect of a host action (R23) -/

/-- What a host action can make of the state `s`: one constructor for each kind of effect. -/
inductive ActionEffect (m : MaxLen) (s : State) : HostAction → State → Prop where
  | wrval (v : Word) : ActionEffect m s (.wrval v) (s.setVal v)
  | wrlen (n : BitVec 8) : ActionEffect m s (.wrlen n) (s.setLen (clampLen m.val n))
  | wrbuf (a : BitVec 8) (b : Byte) (h : a.toNat < m.val) :
    ActionEffect m s (.wrbuf a b) (s.setBuf (s.buf.write a.toNat b))
  /-- A write at or above MAXLEN (R109). -/
  | dropped (a : BitVec 8) (b : Byte) (h : m.val ≤ a.toNat) : ActionEffect m s (.wrbuf a b) s
  | decode (w : Width) : ActionEffect m s (.cmd (encodeCmd (.decodeOf w)))
      ((s.setAcc (acc64 (retained s.seq w))).setVal (zext64 (decode s.seq w)))
  | encode (w : Width) : ActionEffect m s (.cmd (encodeCmd (.encodeOf w)))
      (((s.setWrk 0#64).setBuf (encodeInto w.bytes (zext64 (s.valAt w)) s.buf).2).setLen (BitVec.ofNat 8 w.bytes))
  | reserved (c : BitVec 8) (h : decodeCmd c = .reserved) : ActionEffect m s (.cmd c) s
  | read (a : HostAction) (h : a.reads = true) (r : Reading) : ActionEffect m s a (s.yield r)

/-- A read yields a value that the hardware alone settles, and does nothing else (R37). -/
theorem perform_of_reads (m : MaxLen) {a : HostAction} (h : a.reads = true) (s : State) :
    ∃ r, ∀ t : State, t.SameHardware s → perform m a t = .next (t.yield r) := by
  cases a with
  | rdval => exact ⟨.val s.val, fun t ⟨hval, _⟩ => by rw [← hval]; rfl⟩
  | rdlen => exact ⟨.len s.len, fun t ⟨_, _, hlen, _⟩ => by rw [← hlen]; rfl⟩
  | rdbuf a => exact ⟨.buf (readBuf m a s), fun t ⟨_, hbuf, _⟩ => by simp only [perform, performRdbuf, readBuf, hbuf]⟩
  | rdcmd => exact ⟨.cmd 0x00#8, fun t _ => rfl⟩
  | wrval v => cases h
  | wrlen n => cases h
  | wrbuf a b => cases h
  | cmd c => cases h

theorem performCmd_of_command {c : Byte} {i : Instr} (h : decodeCmd c = .command i) (s : State) :
    performCmd c s = exec i s := by
  rw [performCmd, h]

theorem perform_wrbuf_of_lt {m : MaxLen} {a : BitVec 8} (h : a.toNat < m.val) (b : Byte) (s : State) :
    perform m (.wrbuf a b) s = .next (s.setBuf (s.buf.write a.toNat b)) := by
  rw [perform, performWrbuf_of_lt h]

/-- Every host action answers a next state (R116), by one of the effects. -/
theorem exists_perform_effect (m : MaxLen) (a : HostAction) (s : State) :
    ∃ t, perform m a s = .next t ∧ ActionEffect m s a t := by
  cases a with
  | wrval v => exact ⟨_, rfl, .wrval v⟩
  | wrlen n => exact ⟨_, rfl, .wrlen n⟩
  | wrbuf a b =>
    obtain h | h := Nat.lt_or_ge a.toNat m.val
    · exact ⟨_, perform_wrbuf_of_lt h b s, .wrbuf a b h⟩
    · exact ⟨_, congrArg Host.Outcome.next (performWrbuf_of_ge h b s), .dropped a b h⟩
  | cmd c =>
    cases hc : decodeCmd c with
    | reserved => exact ⟨_, performCmd_of_reserved hc s, .reserved c hc⟩
    | command i =>
      obtain rfl := encodeCmd_of_decodeCmd hc
      rw [perform, performCmd_of_command hc]
      rcases instr_cases i with ⟨w, rfl⟩ | ⟨w, rfl⟩
      · exact ⟨_, exec_decodeOf_eq w s, .decode w⟩
      · exact ⟨_, exec_encodeOf_eq_encodeInto w s, .encode w⟩
  | rdval => exact ⟨_, rfl, .read .rdval rfl _⟩
  | rdlen => exact ⟨_, rfl, .read .rdlen rfl _⟩
  | rdbuf a => exact ⟨_, rfl, .read (.rdbuf a) rfl _⟩
  | rdcmd => exact ⟨_, rfl, .read .rdcmd rfl _⟩

theorem perform_effect {m : MaxLen} {a : HostAction} {s t : State} (h : perform m a s = .next t) :
    ActionEffect m s a t := by
  obtain ⟨u, hu, heff⟩ := exists_perform_effect m a s
  cases hu.symm.trans h
  exact heff

/-! ## Nothing stops (R116, R135) -/

theorem perform_completes (m : MaxLen) (a : HostAction) (s : State) : Completes (perform m a s) := by
  obtain ⟨t, ht, -⟩ := exists_perform_effect m a s
  exact ⟨t, ht⟩

theorem absorb_completes (m : MaxLen) (i : Input) (s : State) : Completes (absorb m i s) := by
  cases i with
  | action a => exact perform_completes m a s
  | reset => exact ⟨_, rfl⟩

theorem hostStep_completes (m : MaxLen) (s : State) : Completes (hostStep m s) := by
  cases hi : s.inputs with
  | nil => exact ⟨s, hostStep_nil hi⟩
  | cons i rest => exact hostStep_cons hi ▸ absorb_completes m i _

/-! ## What every step, and every action of a program, keeps -/

/-- A predicate that does not look at the queue, holds after reset and is kept by every host action is kept by every
step. -/
theorem hostStep_keeps {m : MaxLen} {P : State → Prop} (hqueue : ∀ s r, P s → P (s.setInputs r))
    (hreset : ∀ s : State, P s.applyReset) (haction : ∀ {a s t}, P s → perform m a s = .next t → P t)
    {s t : State} (hs : P s) (h : hostStep m s = .next t) : P t := by
  cases hi : s.inputs with
  | nil =>
    rw [hostStep_nil hi] at h
    cases h
    exact hs
  | cons i rest =>
    rw [hostStep_cons hi] at h
    cases i with
    | action a => exact haction (hqueue s rest hs) h
    | reset =>
      cases h
      exact hreset _

/-- A program runs to its end, and what each of its actions keeps holds there (R115, R116). -/
theorem runActions_keeps {m : MaxLen} {P : State → Prop} {p : List HostAction} {s : State}
    (h : ∀ a ∈ p, ∀ s t, P s → perform m a s = .next t → P t) (hs : P s) :
    ∃ t, runActions m p s = .next t ∧ P t := by
  induction p generalizing s with
  | nil => exact ⟨s, rfl, hs⟩
  | cons a p ih =>
    obtain ⟨t, ht⟩ := perform_completes m a s
    rw [runActions_cons ht]
    exact ih (fun x hx => h x (List.mem_cons_of_mem a hx)) (h a List.mem_cons_self s t hs ht)

theorem runActions_completes (m : MaxLen) (p : List HostAction) (s : State) : Completes (runActions m p s) := by
  obtain ⟨t, ht, -⟩ := runActions_keeps (m := m) (P := fun _ => True) (p := p) (s := s)
    (fun _ _ _ _ _ _ => trivial) trivial
  exact ⟨t, ht⟩

/-! ## What a host action leaves in the buffer, in `WRK` and in the queue -/

section
variable {m : MaxLen} {a : HostAction} {s t : State}

/-- A host action keeps `BUF` canonical and inside the buffer space: it writes below MAXLEN (R109), or the K <= 8 <=
MAXLEN first addresses (R95). -/
theorem perform_buf_legal (hs : s.buf.wf ∧ s.buf.below m.val) (h : perform m a s = .next t) :
    t.buf.wf ∧ t.buf.below m.val := by
  obtain ⟨hwf, hbelow⟩ := hs
  cases perform_effect h with
  | wrbuf a b ha => exact ⟨Memory.write_wf hwf _ b, Memory.write_below hbelow ha b⟩
  | encode w => exact ⟨encodeInto_wf hwf _ _, encodeInto_below hbelow _ (w.bytes_le.trans m.lower) _⟩
  | _ => exact ⟨hwf, hbelow⟩

theorem perform_legal (hs : s.Legal m) (h : perform m a s = .next t) : t.Legal m := by
  obtain ⟨hlen, hbuf⟩ := hs
  exact ⟨perform_len_le hlen h, perform_buf_legal hbuf h⟩

/-- A host action leaves `WRK` alone or, as an encode command, empty (R16, R100 (b)). -/
theorem perform_wrk_eq_zero (hs : s.wrk = 0#64) (h : perform m a s = .next t) : t.wrk = 0#64 := by
  cases perform_effect h with
  | encode w => rfl
  | _ => exact hs

/-- What can change a buffer byte (R23): a write of its address below MAXLEN, or an encode command that reaches it. -/
theorem perform_read_changes (h : perform m a s = .next t) {x : Nat} (hx : t.buf.read x ≠ s.buf.read x) :
    (∃ y b, a = .wrbuf y b ∧ y.toNat = x ∧ x < m.val) ∨
      ∃ w, a = .cmd (encodeCmd (.encodeOf w)) ∧ x < w.bytes := by
  cases perform_effect h with
  | wrbuf y b hy =>
    have hyx : y.toNat = x := by
      by_contra hne
      exact hx (Memory.read_write_other s.buf b (Ne.symm hne))
    exact .inl ⟨y, b, rfl, hyx, hyx ▸ hy⟩
  | encode w =>
    refine .inr ⟨w, rfl, ?_⟩
    by_contra hle
    exact hx (encodeInto_read_above _ _ _ (Nat.le_of_not_lt hle))
  | _ => exact absurd rfl hx

/-- A host action cannot choose the next one (R115). -/
theorem perform_inputs (h : perform m a s = .next t) : t.inputs = s.inputs := by
  cases perform_effect h <;> rfl

theorem absorb_inputs {i : Input} (h : absorb m i s = .next t) : t.inputs = s.inputs := by
  cases i with
  | action a => exact perform_inputs h
  | reset =>
    cases h
    rfl

end

theorem Memory.nil_wf : Memory.wf [] := ⟨.nil, fun _ h => absurd h List.not_mem_nil⟩

theorem State.reset_legal (m : MaxLen) : State.reset.Legal m :=
  ⟨Nat.zero_le _, Memory.nil_wf, fun _ h => absurd h List.not_mem_nil⟩

theorem hostStep_legal {m : MaxLen} {s t : State} (hs : s.Legal m) (h : hostStep m s = .next t) : t.Legal m :=
  hostStep_keeps (P := State.Legal m) (fun _ _ hs => hs) (fun _ => State.reset_legal m) perform_legal hs h

/-! ## The queue (R115) -/

/-- One step an input runs the queue empty (R116). -/
theorem core_run_inputs (s : State) : ∃ t, Host.Core.run core s.inputs.length s = .next t ∧ t.inputs = [] := by
  generalize hq : s.inputs = q
  induction q generalizing s with
  | nil => exact ⟨s, rfl, hq⟩
  | cons i rest ih =>
    obtain ⟨t, ht⟩ := absorb_completes Config.maxLen i (s.setInputs rest)
    rw [List.length_cons, core_run_succ ((hostStep_cons hq).trans ht)]
    exact ih t (absorb_inputs ht)

/-- Queued actions, one step each, run as the program: the rest of the queue waits unseen. -/
theorem core_run_queue (p : List HostAction) {s : State} (hs : s.inputs = []) :
    Host.Core.run core p.length (s.setInputs (p.map .action)) = runActions Config.maxLen p s := by
  induction p generalizing s with
  | nil =>
    rw [runActions, List.map_nil, ← hs]
    rfl
  | cons a p ih =>
    obtain ⟨t, ht⟩ := perform_completes Config.maxLen a s
    have hstep : step (s.setInputs ((a :: p).map .action)) = .next (t.setInputs (p.map .action)) :=
      perform_setInputs ht _
    rw [List.length_cons, core_run_succ hstep, runActions_cons ht, ih ((perform_inputs ht).trans hs)]

/-! ## An action performed twice (R37) -/

theorem Memory.write_write {m : Memory} (hm : m.wf) (a : Nat) (b b' : Byte) :
    (m.write a b).write a b' = m.write a b' := by
  have hm' := Memory.write_wf hm a b
  refine Memory.ext_of_read (Memory.write_wf hm' a b') (Memory.write_wf hm a b') fun x => ?_
  rw [Memory.read_write hm', Memory.read_write hm, Memory.read_write hm]
  split <;> rfl

/-- From a canonical buffer a repeated action finds its own result there and leaves the hardware alone (R37). -/
theorem perform_again {m : MaxLen} {a : HostAction} {s t : State} (hs : s.buf.wf) (h : perform m a s = .next t) :
    ∃ u, perform m a t = .next u ∧ u.SameHardware t := by
  cases perform_effect h with
  | wrval v => exact ⟨_, rfl, rfl, rfl, rfl, rfl, rfl⟩
  | wrlen n => exact ⟨_, rfl, rfl, rfl, rfl, rfl, rfl⟩
  | wrbuf a b ha =>
    exact ⟨_, perform_wrbuf_of_lt ha b _, rfl, Memory.write_write hs _ b b, rfl, rfl, rfl⟩
  | dropped a b ha => exact ⟨_, h, rfl, rfl, rfl, rfl, rfl⟩
  | reserved c hc => exact ⟨_, h, rfl, rfl, rfl, rfl, rfl⟩
  | decode w =>
    exact ⟨_, (perform_cmd_encodeCmd m _ _).trans (exec_decodeOf_eq w _), rfl, rfl, rfl, rfl, rfl⟩
  | encode w =>
    have hagain := exec_encodeOf_again (exec_encodeOf_eq_encodeInto w s) hs
    exact ⟨_, (perform_cmd_encodeCmd m _ _).trans hagain, rfl, rfl, rfl, rfl, rfl⟩
  | read a ha r =>
    obtain ⟨r', hread⟩ := perform_of_reads m ha (s.yield r)
    exact ⟨_, hread _ ⟨rfl, rfl, rfl, rfl, rfl⟩, rfl, rfl, rfl, rfl, rfl⟩

/-! ## The first command after reset (R22) -/

theorem exec_decodeOf_reset_val {w : Width} {t : State} (h : exec (.decodeOf w) State.reset = .next t) :
    t.val = 0#64 := by
  rw [exec_decodeOf_val h, zext64_decode, retained_of_length_le (Nat.zero_le _)]
  rfl

/-- The value 0 is encoded as K zero bytes (R22, R74). -/
theorem encode_zero (w : Width) : encode w ((0#64).setWidth w.bits) = zeros w.bytes :=
  encode_eq_of_bigEndian List.length_replicate (by simp)

end Sys2Proof.Machine
end

section
/-!
SUPPORT. The statements about the step, the invariants and the effects of the host actions that are settled: R21 to R23,
R37, R111, R114 to R116 and R135.
-/

namespace Sys2Proof.Machine

/-- Settles O7: the word's command is all that the action performs, and every step completes. -/
theorem stepRunsTheDecodedCommand : Obligations.StepRunsTheDecodedCommand := by
  intro s c rest hs
  have hstep : step s = performCmd c (s.setInputs rest) := hostStep_cons hs
  refine ⟨fun i hi => ?_, fun hc => ?_, hostStep_completes Config.maxLen s⟩
  · rw [hstep, performCmd_of_command hi, State.setInputs]
  · rw [hstep, performCmd_of_reserved hc, State.setInputs]

/-- Settles O8: the placed action is the first of the queue, and the step takes it away again. -/
theorem placedWordRunsNext : Obligations.PlacedWordRunsNext := by
  intro s nbits w i hw
  rw [decodeTableWord] at hw
  split at hw
  next i' hi' =>
    cases hw
    exact performCmd_of_command hi' s
  next => cases hw

/-- Settles O9: the step takes the head of the queue. -/
theorem stepPerformsTheNextAction : Obligations.StepPerformsTheNextAction := fun _ =>
  ⟨fun _ _ => hostStep_cons, hostStep_nil, Config.maxLen.lower, Config.maxLen.upper⟩

/-- Settles O10: the first command after reset works on the empty sequence and the value 0. -/
theorem resetClearsTheBlock : Obligations.ResetClearsTheBlock := by
  refine ⟨fun s rest hs => ⟨_, hostStep_cons hs, ⟨rfl, rfl, rfl, rfl, rfl⟩, rfl, rfl⟩, rfl, rfl, fun _ => rfl, rfl, rfl,
    rfl, fun w => ⟨?_, ?_⟩⟩
  · obtain ⟨t, ht⟩ := exec_completes (.decodeOf w) State.reset
    exact ⟨t, ht, exec_decodeOf_reset_val ht⟩
  · obtain ⟨t, ht⟩ := exec_completes (.encodeOf w) State.reset
    rw [w.bits_div_eight]
    exact ⟨t, ht, exec_encodeOf_len ht, (exec_encodeOf_seq ht Memory.nil_wf).trans (encode_zero w)⟩

/-- Settles O11: each command, each input and each step has its one outcome, a next state. -/
theorem nothingEverStops : Obligations.NothingEverStops :=
  ⟨exec_completes, absorb_completes, hostStep_completes Config.maxLen⟩

/-- Settles O12: each action answers a next state, and each step shortens the queue by one. -/
theorem runsEndWithNothingPending : Obligations.RunsEndWithNothingPending :=
  ⟨runActions_completes, core_run_inputs⟩

/-- Settles O13: an action neither sees nor changes the queue, so a step takes the queue along. -/
theorem queuedActionsRunAsTheProgram : Obligations.QueuedActionsRunAsTheProgram := fun p _ => core_run_queue p

/-- Settles O15: every write to the buffer is below MAXLEN and keeps the canonical form, and `LEN` takes only clamped
values and K <= 8. -/
theorem stepKeepsStatesLegal : Obligations.StepKeepsStatesLegal :=
  ⟨fun _ _ => hostStep_legal, fun _ _ _ => hostStep_legal⟩

/-- Settles O16: `LEN` is 0 and the buffer's list is empty. -/
theorem resetIsLegal : Obligations.ResetIsLegal := State.reset_legal

/-- Settles O17: the encode commands, which alone write `WRK`, shift it out entirely. -/
theorem stepKeepsTheWorkingCopyEmpty : Obligations.StepKeepsTheWorkingCopyEmpty := fun _ _ =>
  hostStep_keeps (P := fun s => s.wrk = 0#64) (fun _ _ hs => hs) (fun _ => rfl) perform_wrk_eq_zero

/-- Settles O18: of the effects of an action, all but the named ones leave the register as it was. -/
theorem onlyTheseActionsWrite : Obligations.OnlyTheseActionsWrite := by
  intro m a s t h
  refine ⟨fun hval => ?_, fun hlen => ?_, fun hacc => ?_, fun hwrk => ?_, fun x => perform_read_changes h,
    perform_inputs h⟩
  · cases perform_effect h with
    | wrval v => exact .inl ⟨v, rfl⟩
    | decode w => exact .inr ⟨w, rfl⟩
    | _ => exact absurd rfl hval
  · cases perform_effect h with
    | wrlen n => exact .inl ⟨n, rfl⟩
    | encode w => exact .inr ⟨w, rfl⟩
    | _ => exact absurd rfl hlen
  · cases perform_effect h with
    | decode w => exact ⟨w, rfl⟩
    | _ => exact absurd rfl hacc
  · cases perform_effect h with
    | encode w => exact ⟨w, rfl⟩
    | _ => exact absurd rfl hwrk

/-- Settles O20: a read's value depends on the hardware, which it leaves alone; a repeated write finds what it writes. -/
theorem actionsAreIdempotent : Obligations.ActionsAreIdempotent := by
  refine ⟨fun m a s ha => ?_, fun m a s t => perform_again⟩
  obtain ⟨r, hread⟩ := perform_of_reads m ha s
  have hsame : (s.yield r).SameHardware s := ⟨rfl, rfl, rfl, rfl, rfl⟩
  exact ⟨r, _, _, hread s ⟨rfl, rfl, rfl, rfl, rfl⟩, hsame, rfl, hread _ hsame, List.append_assoc ..⟩

end Sys2Proof.Machine
end

section
/-!
SUPPORT. The host's sequences of actions (`30_encoding.md` R60, `43_host_access.md` R114): what the expansions of
`PUTSEQ` and `GETSEQ` do, and that a buffer byte stays until something writes it.
-/

namespace Sys2Proof.Machine

/-! ## A byte that no action of a program writes (R40) -/

theorem perform_read_kept {m : MaxLen} {x : HostAction} {a : BitVec 8} {s t : State} (hcmd : ∀ c, x ≠ .cmd c)
    (hwrbuf : ∀ b, x ≠ .wrbuf a b) (h : perform m x s = .next t) :
    t.buf.read a.toNat = s.buf.read a.toNat := by
  by_contra hne
  obtain ⟨y, b, rfl, hy, -⟩ | ⟨w, rfl, -⟩ := perform_read_changes h hne
  · exact hwrbuf b (by rw [BitVec.eq_of_toNat_eq hy])
  · exact hcmd _ rfl

/-! ## Numbers up to MAXLEN (R4) -/

/-- A length or an address up to MAXLEN fits its 8 bits. -/
theorem toNat_ofNat_of_le {m : MaxLen} {n : Nat} (h : n ≤ m.val) : (BitVec.ofNat 8 n).toNat = n :=
  (BitVec.toNat_ofNat n 8).trans (Nat.mod_eq_of_lt (Nat.lt_succ_of_le (h.trans m.upper)))

/-! ## The expansions of `PUTSEQ` and `GETSEQ` (R60) -/

/-- `WRBUF` actions at the addresses from `a` on are one `MemWrite`. -/
theorem runActions_putBytes {m : MaxLen} {a : Nat} {q : ByteSequence} (h : a + q.length ≤ m.val) (s : State) :
    runActions m (putBytes a q) s = .next (s.setBuf (s.buf.writeRange a q)) := by
  induction q generalizing a s with
  | nil => rfl
  | cons b q ih =>
    rw [List.length_cons] at h
    have ha : (BitVec.ofNat 8 a).toNat = a := toNat_ofNat_of_le (m := m) (by omega)
    rw [putBytes, runActions_cons (perform_wrbuf_of_lt (by omega) b s), ha, ih (by omega)]
    rfl

/-- `RDBUF` actions at the addresses from `a` on yield the range of bytes. -/
theorem runActions_getBytes {m : MaxLen} {a k : Nat} (h : a + k ≤ m.val) (s : State) :
    runActions m (getBytes a k) s =
      .next { s with readings := s.readings ++ (s.buf.readRange a k).map .buf } := by
  induction k generalizing a s with
  | zero => simp [getBytes, runActions, Memory.readRange]
  | succ k ih =>
    have ha : (BitVec.ofNat 8 a).toNat = a := toNat_ofNat_of_le (m := m) (by omega)
    have hread : perform m (.rdbuf (BitVec.ofNat 8 a)) s = .next (s.yield (.buf (s.buf.read a))) := by
      rw [perform, performRdbuf, readBuf_of_lt (by omega), ha]
    rw [getBytes, runActions_cons hread, ih (by omega)]
    simp [Memory.readRange, State.yield]

/-- `PUTSEQ` is one `MemWrite` at address 0 and its length in `LEN`, which no clamping changes. -/
theorem runActions_putSeq {m : MaxLen} {q : ByteSequence} (h : q.length ≤ m.val) (k : Nat) (s : State) :
    runActions m ((Statement.putSeq q).expand k) s =
      .next ((s.setBuf (s.buf.writeRange 0 q)).setLen (BitVec.ofNat 8 q.length)) := by
  rw [Statement.expand, runActions_append (runActions_putBytes (by omega) s), runActions, perform, performWrlen,
    clampLen_of_le (by rwa [toNat_ofNat_of_le h])]
  rfl

/-- After `PUTSEQ q` the sequence is q. -/
theorem seq_putSeq {m : MaxLen} {q : ByteSequence} (h : q.length ≤ m.val) {s : State} (hs : s.buf.wf) :
    ((s.setBuf (s.buf.writeRange 0 q)).setLen (BitVec.ofNat 8 q.length)).seq = q := by
  rw [State.seq, State.setLen_len, toNat_ofNat_of_le h]
  exact Memory.readRange_writeRange hs 0 q

theorem runActions_getSeq {m : MaxLen} {s : State} (h : s.len.toNat ≤ m.val) :
    runActions m (Statement.getSeq.expand s.len.toNat) s =
      .next { s with readings := s.readings ++ .len s.len :: s.seq.map .buf } := by
  have hread : perform m .rdlen s = .next (s.yield (.len s.len)) := rfl
  rw [Statement.expand, runActions_cons hread, runActions_getBytes (by omega)]
  simp [State.seq, State.yield]

end Sys2Proof.Machine
end

section
/-!
SUPPORT. The statements about the host's sequences of actions that are settled: R40, R60 and R114 (b).
-/

namespace Sys2Proof.Machine

/-- Settles O57: none of the actions in between can change the byte. -/
theorem readsSeeTheLatestWrite : Obligations.ReadsSeeTheLatestWrite := by
  intro m a b p s ha hs hp
  have hwritten : (s.setBuf (s.buf.write a.toNat b)).buf.read a.toNat = b := Memory.read_write_same hs _ b
  obtain ⟨t, ht, hread⟩ := runActions_keeps (m := m) (P := fun s => s.buf.read a.toNat = b)
    (fun x hx _ _ hs h => have ⟨hcmd, hwrbuf⟩ := hp x hx; (perform_read_kept hcmd hwrbuf h).trans hs) hwritten
  refine ⟨t, t.yield (.buf b), (runActions_cons (perform_wrbuf_of_lt ha b s) p).trans ht, ?_, rfl⟩
  rw [perform, performRdbuf, readBuf_of_lt ha, hread]

/-- Settles O59: the expansions are a `MemWrite` and a `MemRead` from address 0, within the buffer space. -/
theorem putseqAndGetseqMoveTheSequence : Obligations.PutseqAndGetseqMoveTheSequence := by
  refine ⟨fun m q k s hq hs => ?_, fun m s ⟨hlen, _⟩ => ?_⟩
  · have hq : q.length ≤ m.val := of_decide_eq_true hq
    refine ⟨_, runActions_putSeq hq k s, seq_putSeq hq hs, toNat_ofNat_of_le hq, fun a ha => ?_, rfl, rfl, rfl, rfl⟩
    rw [State.setLen_buf, State.setBuf_buf, Memory.read_writeRange hs, dif_neg (by omega)]
  · exact ⟨_, runActions_getSeq hlen, rfl, rfl, rfl, rfl, rfl, rfl⟩

/-- Settles O60: the decode command decodes the sequence that `PUTSEQ` left, and `GETSEQ` reads the encoding that the
encode command left. -/
theorem hostGetsDecodeAndEncode : Obligations.HostGetsDecodeAndEncode := by
  refine ⟨fun m q w s hq hs => ?_, fun m w v s hs => ?_⟩
  · have hdec := exec_decodeOf_eq w ((s.setBuf (s.buf.writeRange 0 q)).setLen (BitVec.ofNat 8 q.length))
    rw [seq_putSeq hq hs] at hdec
    rw [runActions_append (runActions_putSeq hq 0 s)]
    exact ⟨_, runActions_command_pair hdec rfl, rfl⟩
  · have hwrite : perform m (.wrval (zext64 v)) s = .next (s.setVal (zext64 v)) := rfl
    have henc := exec_encodeOf_eq_encodeInto w (s.setVal (zext64 v))
    have hlen := exec_encodeOf_len henc
    have hseq := exec_encodeOf_seq henc hs
    have hget := runActions_getSeq (m := m) (hlen.trans_le (w.bytes_le.trans m.lower))
    rw [hlen, hseq, State.setVal_val, zext64_setWidth] at hget
    rw [runActions_append (runActions_pair hwrite ((perform_cmd_encodeCmd m _ _).trans henc))]
    exact ⟨_, hget, rfl⟩

end Sys2Proof.Machine
end
